-- ==== Sys2Proof/Word.lean ====
section
/-! DEFINITION. The two word types of the block: a byte (operands, registers, frame-buffer cells; spec/10_state.md,
spec/30_encoding.md R44) and the host operation word (spec/30_encoding.md R43). -/

namespace Sys2Proof

/-- An 8-bit unsigned value (R12, R14): an operand field, a control register or one frame-buffer byte. -/
abbrev Byte := BitVec 8

/-- The 32-bit host operation word (R43). -/
abbrev OpWord := BitVec 32

end Sys2Proof
end

