-- ==== Sys2Proof/Syntax.lean ====
section
/-! DEFINITION. The operations of the block: one constructor per row of spec/opcode_table.json, operands in the order
`A, B, C` of spec/30_encoding.md R45, each an unsigned 8-bit value (R44). Every term is an instruction the encoding
admits: the operand types carry the only bound there is. -/

namespace Sys2Proof

/-- A host operation (R45). -/
inductive Instr where
  | init
  | select (mask : Byte)
  | writeBits (value count : Byte)
  | writeSingleBit
  | setPixel (x y : Byte)
  | clearPixel (x y : Byte)
  | writePixel (x y value : Byte)
  | setColumn (position byteValue : Byte)
  | fill
  | clear
  | render
  | setBrightness (level selectionMask : Byte)
  | selectTarget (target : Byte)
  | selectChannel (channel : Byte)
  | getPixel (x y : Byte)
deriving DecidableEq, Repr

end Sys2Proof
end

