-- ==== Sys2Proof/Decode.lean ====
section
/-! DEFINITION. Decoding and encoding of the host operation word: spec/30_encoding.md R43 to R47. -/

namespace Sys2Proof

/-- Why a word is illegal (R46). Each reason raises the one fault `ILLEGAL_OP` (R91). -/
inductive DecodeError where
  /-- `OP = 0`, the reserved operation code. -/
  | reservedOpcode
  /-- Bits 27:24 are not all 0. -/
  | reservedBits
  /-- A field the operation's row marks 0 is not 0. -/
  | unusedField
deriving DecidableEq, Repr

/-- `OP`, bits 31:28 (R43). -/
def fieldOp (w : OpWord) : BitVec 4 := w.extractLsb' 28 4
/-- The reserved bits 27:24 (R43). -/
def fieldReserved (w : OpWord) : BitVec 4 := w.extractLsb' 24 4
/-- Operand `A`, bits 23:16 (R43). -/
def fieldA (w : OpWord) : Byte := w.extractLsb' 16 8
/-- Operand `B`, bits 15:8 (R43). -/
def fieldB (w : OpWord) : Byte := w.extractLsb' 8 8
/-- Operand `C`, bits 7:0 (R43). -/
def fieldC (w : OpWord) : Byte := w.extractLsb' 0 8

/-- The operation `i`, if the fields its row marks 0 are 0. -/
def ifUnusedZero (zero : Bool) (i : Instr) : Except DecodeError Instr :=
  if zero then .ok i else .error .unusedField

/-- The row of R45 for an operation code, with the fields of the word. -/
def decodeRow (op : Nat) (a b c : Byte) : Except DecodeError Instr :=
  match op with
  | 0x1 => ifUnusedZero (a == 0 && b == 0 && c == 0) .init
  | 0x2 => ifUnusedZero (b == 0 && c == 0) (.select a)
  | 0x3 => ifUnusedZero (c == 0) (.writeBits a b)
  | 0x4 => ifUnusedZero (a == 0 && b == 0 && c == 0) .writeSingleBit
  | 0x5 => ifUnusedZero (c == 0) (.setPixel a b)
  | 0x6 => ifUnusedZero (c == 0) (.clearPixel a b)
  | 0x7 => .ok (.writePixel a b c)
  | 0x8 => ifUnusedZero (c == 0) (.setColumn a b)
  | 0x9 => ifUnusedZero (a == 0 && b == 0 && c == 0) .fill
  | 0xA => ifUnusedZero (a == 0 && b == 0 && c == 0) .clear
  | 0xB => ifUnusedZero (a == 0 && b == 0 && c == 0) .render
  | 0xC => ifUnusedZero (c == 0) (.setBrightness a b)
  | 0xD => ifUnusedZero (b == 0 && c == 0) (.selectTarget a)
  | 0xE => ifUnusedZero (b == 0 && c == 0) (.selectChannel a)
  | 0xF => ifUnusedZero (c == 0) (.getPixel a b)
  | _ => .error .reservedOpcode

/-- Decoding of any word (R45, R46): total, rejecting by name. -/
def decode (w : OpWord) : Except DecodeError Instr :=
  if fieldReserved w != 0 then .error .reservedBits
  else decodeRow (fieldOp w).toNat (fieldA w) (fieldB w) (fieldC w)

/-- A word from its fields, bits 27:24 zero (R43). -/
def wordOf (op : BitVec 4) (a b c : Byte) : OpWord :=
  BitVec.ofNat 32 (op.toNat * 2 ^ 28 + a.toNat * 2 ^ 16 + b.toNat * 2 ^ 8 + c.toNat)

/-- The word of an operation (R45). -/
def encode : Instr → OpWord
  | .init => wordOf 0x1 0 0 0
  | .select mask => wordOf 0x2 mask 0 0
  | .writeBits value count => wordOf 0x3 value count 0
  | .writeSingleBit => wordOf 0x4 0 0 0
  | .setPixel x y => wordOf 0x5 x y 0
  | .clearPixel x y => wordOf 0x6 x y 0
  | .writePixel x y value => wordOf 0x7 x y value
  | .setColumn position byteValue => wordOf 0x8 position byteValue 0
  | .fill => wordOf 0x9 0 0 0
  | .clear => wordOf 0xA 0 0 0
  | .render => wordOf 0xB 0 0 0
  | .setBrightness level selectionMask => wordOf 0xC level selectionMask 0
  | .selectTarget target => wordOf 0xD target 0 0
  | .selectChannel channel => wordOf 0xE channel 0 0
  | .getPixel x y => wordOf 0xF x y 0

/-- What the decoder reads from a table row's word of `nbits` bits (bit 0 least significant, bits above `nbits` zero).
The host presents the 32-bit word whole, so there is no byte order; a value wider than one word is no word (DESIGN
CHOICE, safe: notes/assumptions/17.md). -/
def decodeTableWord (nbits w : Nat) : Option Instr :=
  let v := w % 2 ^ nbits
  if v < 2 ^ 32 then
    match decode (BitVec.ofNat 32 v) with
    | .ok i => some i
    | .error _ => none
  else none

/-- The mnemonic of an operation (R45). -/
def Instr.mnemonic : Instr → String
  | .init => "INIT"
  | .select _ => "SELECT"
  | .writeBits _ _ => "WRITE_BITS"
  | .writeSingleBit => "WRITE_SINGLE_BIT"
  | .setPixel _ _ => "SET_PIXEL"
  | .clearPixel _ _ => "CLEAR_PIXEL"
  | .writePixel _ _ _ => "WRITE_PIXEL"
  | .setColumn _ _ => "SET_COLUMN"
  | .fill => "FILL"
  | .clear => "CLEAR"
  | .render => "RENDER"
  | .setBrightness _ _ => "SET_BRIGHTNESS"
  | .selectTarget _ => "SELECT_TARGET"
  | .selectChannel _ => "SELECT_CHANNEL"
  | .getPixel _ _ => "GET_PIXEL"

end Sys2Proof
end

