-- ==== Sys2Proof/Config.lean ====
section
/-! DEFINITION. The implementation parameters of spec/00_scope.md R8, with the values this spec gives them. The two
parameters the spec leaves OPEN (`CMD_COM`, `T_WR_HIGH`) are uninterpreted constants in the configuration that
`State.reset` carries. -/

namespace Sys2Proof

/-- The configuration of one block (R8): fixed at reset, changed by no operation. -/
structure Config where
  /-- `NUM_CHIPS`, the number of chained chips, 1 to 4. -/
  numChips : Nat
  /-- `OUTPUT_SIZE`, the matrix columns. -/
  outputSize : Nat
  /-- `COMMON_SIZE`, the matrix rows; 8 in every well-formed configuration (R9). -/
  commonSize : Nat
  /-- `CHANNEL_COUNT`, the channels of the frame buffer. -/
  channelCount : Nat
  /-- `T_PROP` in nanoseconds: the least time between driving DATA and raising WR. -/
  tProp : Nat
  /-- `T_WR_HIGH` in nanoseconds, OPEN (92 D20): it annotates time and inserts no wait (R76). -/
  tWrHigh : Nat
  /-- `ID_WR`, the 3-bit write-RAM command ID. -/
  idWr : BitVec 3
  /-- `ID_CMD`, the 3-bit command-mode ID. -/
  idCmd : BitVec 3
  /-- `CMD_SYS_DIS`, system-oscillator-disable. -/
  cmdSysDis : Byte
  /-- `CMD_COM`, common-electrode-mode selection, OPEN (92 D21). -/
  cmdCom : Byte
  /-- `CMD_SYS_EN`, system-oscillator-enable. -/
  cmdSysEn : Byte
  /-- `CMD_LED_ON`, LED-driver-enable. -/
  cmdLedOn : Byte
  /-- `CMD_PWM_BASE`, the PWM duty command with a zero duty field. -/
  cmdPwmBase : Byte
  /-- `DEFAULT_PWM_LEVEL`, the level INIT sends, 1 to 16. -/
  defaultPwmLevel : Nat
  /-- `CURRENT_TARGET`, the reserved mask value meaning "current render target". -/
  currentTarget : Byte
  /-- `PAD_LEVEL`, the DATA level of the padding bit (`true` is 1). -/
  padLevel : Bool
  /-- `HAS_CLK`: the optional clock pin exists. -/
  hasClk : Bool
deriving DecidableEq, Repr

/-- `LEN`, the bytes of one channel: `(COMMON_SIZE * OUTPUT_SIZE) / 8` (R10). -/
def Config.len (c : Config) : Nat := c.commonSize * c.outputSize / 8

/-- The bytes of the whole frame buffer, `CHANNEL_COUNT * LEN` (R25). -/
def Config.bufferBytes (c : Config) : Nat := c.channelCount * c.len

/-- The board's `CMD_COM`: OPEN in the spec (R8, R50), so no value (DESIGN CHOICE, safe:
notes/assumptions/3.md). -/
opaque Config.boardCmdCom : Byte

/-- The platform's WR high time: OPEN in the spec (R8, R76), so no value (DESIGN CHOICE, safe:
notes/assumptions/3.md). -/
opaque Config.platformTWrHigh : Nat

/-- A configuration with the spec's values for every parameter that R8 gives one (the code and ID defaults are R8's,
from general knowledge: PRESUMED, unsafe for a claim about the default codes, notes/assumptions/9.md), over the arguments R8 leaves to the model. -/
def Config.withDefaults (numChips outputSize channelCount : Nat) (cmdCom : Byte) (tWrHigh : Nat) (hasClk : Bool) :
    Config where
  numChips := numChips
  outputSize := outputSize
  commonSize := 8
  channelCount := channelCount
  tProp := 50
  tWrHigh := tWrHigh
  idWr := 0b101#3
  idCmd := 0b100#3
  cmdSysDis := 0x00#8
  cmdCom := cmdCom
  cmdSysEn := 0x01#8
  cmdLedOn := 0x03#8
  cmdPwmBase := 0xA0#8
  defaultPwmLevel := 16
  currentTarget := 0x10#8
  padLevel := false
  hasClk := hasClk

/-- DESIGN CHOICE (unsafe: notes/assumptions/2.md): the configuration `State.reset` carries, the one-chip, 32-column,
one-channel display of spec/95_test_vectors.md X6, without a clock pin. -/
def Config.standard : Config := Config.withDefaults 1 32 1 Config.boardCmdCom Config.platformTWrHigh false

end Sys2Proof
end

