-- ==== Sys2Proof/WellFormed.lean ====
section
/-! DEFINITION. What is well formed. An operation word carries its operands whole, so every `Instr` is well formed; what
can be ill formed is a configuration (spec/00_scope.md R9), and the block refuses every ill-formed one. -/

namespace Sys2Proof

/-- R9, with the geometry bounds one by one. -/
def Config.geometryOk (c : Config) : Bool :=
  1 ≤ c.numChips && c.numChips ≤ 4
    && c.commonSize == 8
    && c.outputSize % 8 == 0 && 8 ≤ c.outputSize && c.outputSize ≤ 64
    && 1 ≤ c.channelCount
    && 2 * c.channelCount * c.len ≤ 128

/-- The "legal values" column of R8 for the parameters it bounds: `DEFAULT_PWM_LEVEL` is 1 to 16, the low 4 bits of
`CMD_PWM_BASE` are 0, `CURRENT_TARGET` has no bit in positions 0 to 3 (DEDUCED to be refused, safe: notes/assumptions/8.md). -/
def Config.valuesOk (c : Config) : Bool :=
  1 ≤ c.defaultPwmLevel && c.defaultPwmLevel ≤ 16
    && c.cmdPwmBase &&& 0x0F#8 == 0#8
    && c.currentTarget &&& 0x0F#8 == 0#8

/-- A well-formed configuration (R9, R8). "A model refuses every other configuration." -/
def Config.wellFormed (c : Config) : Bool := c.geometryOk && c.valuesOk

end Sys2Proof
end

