-- ==== Sys2Proof/Machine/State.lean ====
section
/-! DEFINITION. The state of the block: spec/10_state.md, with the reasons a step can stop and the state after reset
(R29, R103). -/

namespace Sys2Proof.Machine

/-- A logical output pin (R18). Lines `csN i` with `i ≥ NUM_CHIPS` and, when `HAS_CLK` is false, `clk` do not exist in
the configuration; no rule configures or drives them. -/
inductive Pin where
  /-- `CS_N[i]`, the active-low chip-select of chip `i`. -/
  | csN (i : Fin 4)
  /-- `WR`, the write strobe. -/
  | wr
  /-- `DATA`, the serial data line. -/
  | data
  /-- `CLK`, the optional clock pin; never configured or driven (92 D19). -/
  | clk
deriving DecidableEq, Repr

/-- The mode of a pin (R18). -/
inductive PinMode where
  | unconfigured
  | output
deriving DecidableEq, Repr

/-- The level of a pin (R18): `Unknown`, 0 or 1. -/
inductive Level where
  | unknown
  | low
  | high
deriving DecidableEq, Repr

/-- The state `(mode, level)` of one pin (R18). -/
structure PinState where
  mode : PinMode
  level : Level
deriving DecidableEq, Repr

/-- Every logical pin (R18), those that a configuration does not have among them, which never change (DEDUCED, safe:
notes/assumptions/18.md). -/
structure Pins where
  csN : Vector PinState 4
  wr : PinState
  data : PinState
  clk : PinState
deriving DecidableEq, Repr

/-- A wire event (R13, R24). -/
inductive Event where
  /-- `Cfg(p)`: configure pin `p` as output. -/
  | cfg (p : Pin)
  /-- `Set(p, l)`: drive pin `p` to level `l` (`true` is 1). -/
  | set (p : Pin) (l : Bool)
  /-- `Wait(t)`: at least `t` nanoseconds elapse. -/
  | wait (t : Nat)
deriving DecidableEq, Repr

/-- What the host can do to the block between two operations: present an operation word (R6, R108) or assert reset
(R103). -/
inductive HostInput where
  | word (w : OpWord)
  | reset
deriving DecidableEq, Repr

/-- The cause of a host fault (R91). Codes 5 to 7 are reserved and never raised, so they are no causes. -/
inductive Cause where
  | illegalOp
  | notInitialized
  | badBitCount
  | reinit
deriving DecidableEq, Repr

/-- The frame buffer (R25, R30): bytes by address, addresses strictly rising. Byte `i` of channel `c` has address
`c * LEN + i`. An address that is not listed has no value (DESIGN CHOICE, safe: notes/assumptions/5.md). -/
abbrev Memory := List Host.Cell

/-- The reasons for which the model stops. Neither is reached from a reset of a well-formed configuration. -/
inductive Fault where
  /-- A frame-buffer access with `c ≥ CHANNEL_COUNT` or `i ≥ LEN`; raised by `fbRead` and `fbWrite`. R13 says no rule
  makes one. Safe: the model stops where the spec gives no meaning (DESIGN CHOICE: notes/assumptions/6.md). -/
  | frameBufferRange
  /-- A read of a frame-buffer byte that nothing has written since reset; raised by `fbRead`. R25 says no operation
  makes one. Safe: no value is invented. -/
  | frameBufferUnwritten
deriving DecidableEq, Repr

/-- The reasons for which the model refuses to run. -/
inductive Refusal where
  /-- An instruction without a meaning yet; raised by a rejected arm of `exec`. Safe. -/
  | notModelled (mnemonic : String)
  /-- The configuration is not well formed (R9, R8); raised by `step` and by the common checks of every operation. Safe:
  the spec says a model refuses it. -/
  | illFormedConfig
deriving DecidableEq, Repr

/-- The state of the block. Every field but `pending` is the spec's; `pending` is the model's own, the inputs the host
will present (DESIGN CHOICE, safe: notes/assumptions/4.md). -/
structure State where
  /-- The configuration (R8), carried here because no operation changes it (DESIGN CHOICE, safe:
  notes/assumptions/1.md). -/
  cfg : Config
  /-- The pins (R18, R19). -/
  pins : Pins
  /-- `ACTIVE_TARGET` (R20). -/
  activeTarget : Byte
  /-- `ACTIVE_CHANNEL` (R21). -/
  activeChannel : Byte
  /-- `STATUS` (R22). -/
  status : Byte
  /-- `RESULT` (R23). -/
  result : Byte
  /-- The frame buffer (R25). -/
  fb : Memory
  /-- The wire trace since reset, oldest event first (R24). -/
  trace : List Event
  /-- The inputs the host will present, oldest first. -/
  pending : List HostInput
deriving DecidableEq, Repr

/-- A pin at reset: `Unconfigured`, level `Unknown` (R29). -/
def PinState.reset : PinState := ⟨.unconfigured, .unknown⟩

/-- Every pin at reset (R29). -/
def Pins.reset : Pins := ⟨Vector.replicate 4 .reset, .reset, .reset, .reset⟩

/-- The reset column of R29 for a configuration: the frame buffer, whose contents R29 leaves unspecified, lists no
byte; the trace is empty (R104). -/
def State.resetWith (cfg : Config) : State where
  cfg := cfg
  pins := .reset
  activeTarget := 0
  activeChannel := 0
  status := 0
  result := 0
  fb := []
  trace := []
  pending := []

/-- The machine right after reset (R29, R103), in the configuration of notes/assumptions/2.md. The host has presented
nothing yet. -/
def State.reset : State := .resetWith .standard

end Sys2Proof.Machine
end

