-- ==== Sys2Proof/Machine/Flags.lean ====
section
/-! DEFINITION. The fields of STATUS and the ways they change: spec/10_state.md R22, spec/60_exceptions.md R91, R93. -/

namespace Sys2Proof.Machine

/-- The code recorded in `CAUSE` (R91). -/
def Cause.code : Cause → BitVec 3
  | .illegalOp => 1
  | .notInitialized => 2
  | .badBitCount => 3
  | .reinit => 4

/-- `STATUS.INIT_DONE`, bit 0 (R22). -/
def State.initDone (s : State) : Bool := s.status.getLsbD 0

/-- `STATUS.FAULT`, bit 1 (R22). -/
def State.faulted (s : State) : Bool := s.status.getLsbD 1

/-- `STATUS.CAUSE`, bits 4:2 (R22). -/
def State.causeCode (s : State) : BitVec 3 := s.status.extractLsb' 2 3

/-- The reserved bits 7:5 of STATUS (R22). -/
def State.statusReserved (s : State) : BitVec 3 := s.status.extractLsb' 5 3

/-- STATUS with `INIT_DONE <- 1` (R82). -/
def statusInitDone (status : Byte) : Byte := status ||| 0x01#8

/-- STATUS with `FAULT <- 1` and `CAUSE <- cause` (R93). -/
def statusFault (status : Byte) (cause : Cause) : Byte :=
  (status &&& 0xE3#8) ||| 0x02#8 ||| (cause.code.setWidth 8 <<< 2)

end Sys2Proof.Machine
end

