-- ==== Sys2Proof/Machine/Operands.lean ====
section
/-! DEFINITION. What operations make of their operand bytes: the pixel address translator (spec/40_pixel_addressing.md
R56), the bits of a field in wire order (spec/42_serial_encoder.md R71), the level clamp and the PWM code
(spec/45_brightness.md R87, spec/30_encoding.md R51), the resolved selection mask (R88). Operands are unsigned and
zero-extended (R44). -/

namespace Sys2Proof.Machine

/-- What the translator gives for a valid coordinate (R56). -/
structure PixelAddr where
  offset : Nat
  bitpos : Nat
  mask : Byte
deriving DecidableEq, Repr

/-- The pixel address translator (R56); `none` is `Invalid`. -/
def translatePixel (cfg : Config) (x y : Byte) : Option PixelAddr :=
  if cfg.outputSize ≤ x.toNat ∨ cfg.commonSize ≤ y.toNat then none
  else
    let bitpos := 7 - x.toNat % 8
    some { offset := y.toNat + 8 * (x.toNat / 8), bitpos := bitpos, mask := 1#8 <<< bitpos }

/-- A frame-buffer byte with the masked pixel switched on or off (R58, R59). -/
def pixelInto (on : Bool) (mask byte : Byte) : Byte :=
  if on then byte ||| mask else byte &&& ~~~mask

/-- The address of byte `i` of channel `c` in the model's frame buffer (R30, R37). -/
def fbAddr (cfg : Config) (c i : Nat) : Nat := c * cfg.len + i

/-- The low `n` bits of `v`, most significant first (R71, R12). -/
def msbFirst (v : Byte) : Nat → List Bool
  | 0 => []
  | n + 1 => v.getLsbD n :: msbFirst v n

/-- The high nibble `d[7:4]` of a byte (R77). -/
def highNibble (d : Byte) : Byte := (d.extractLsb' 4 4).setWidth 8

/-- The low nibble `d[3:0]` of a byte (R77). -/
def lowNibble (d : Byte) : Byte := (d.extractLsb' 0 4).setWidth 8

/-- The mask that selects exactly chip `t`: `1 << t` (R77, R86). -/
def chipMask (t : Nat) : Byte := 1#8 <<< t

/-- The broadcast mask `(1 << NUM_CHIPS) - 1` (R84). -/
def broadcastMask (cfg : Config) : Byte := BitVec.ofNat 8 (1 <<< cfg.numChips - 1)

/-- `clampLevel` (R87). -/
def clampLevel (a : Byte) : Nat :=
  if a.toNat = 0 then 1 else if a.toNat > 16 then 16 else a.toNat

/-- `pwmCode(L) = CMD_PWM_BASE | (L - 1)` (R51). -/
def pwmCode (cfg : Config) (level : Nat) : Byte := cfg.cmdPwmBase ||| BitVec.ofNat 8 (level - 1)

/-- The mask SET_BRIGHTNESS resolves its operand to (R86, R88); `none` where the sentinel meets an invalid target. -/
def resolveMask (cfg : Config) (activeTarget selectionMask : Byte) : Option Byte :=
  if selectionMask = cfg.currentTarget then
    if cfg.numChips ≤ activeTarget.toNat then none else some (chipMask activeTarget.toNat)
  else some selectionMask

end Sys2Proof.Machine
end

