-- ==== Sys2Proof/Machine/Wire.lean ====
section
/-! DEFINITION. The wire: what an event does to the pins (spec/10_state.md R18), the events of the subroutines
(spec/41_chip_select.md R67, spec/42_serial_encoder.md R71, R73, spec/30_encoding.md R48, R49), and the views derived
from pins and trace (R19, R24, R26, R70). -/

namespace Sys2Proof.Machine

/-- The level a `Set` drives (R13). -/
def Level.ofBool (l : Bool) : Level := if l then .high else .low

/-- The state of one pin. -/
def Pins.get (ps : Pins) : Pin → PinState
  | .csN i => ps.csN[i]
  | .wr => ps.wr
  | .data => ps.data
  | .clk => ps.clk

/-- The pins with one pin's state replaced. -/
def Pins.put (ps : Pins) (p : Pin) (v : PinState) : Pins :=
  match p with
  | .csN i => { ps with csN := ps.csN.set i.val v i.isLt }
  | .wr => { ps with wr := v }
  | .data => { ps with data := v }
  | .clk => { ps with clk := v }

/-- What one event does to the pins (R18): `Cfg(p)` sets the mode and keeps the level, `Set(p, l)` sets the level. -/
def Pins.apply (ps : Pins) : Event → Pins
  | .cfg p => ps.put p { ps.get p with mode := .output }
  | .set p l => ps.put p { ps.get p with level := .ofBool l }
  | .wait _ => ps

/-- What a list of events, oldest first, does to the pins. -/
def Pins.run (ps : Pins) (evs : List Event) : Pins := evs.foldl Pins.apply ps

/-- The configured chip-select lines in ascending index order (R67). -/
def csLines (cfg : Config) : List (Fin 4) := [0, 1, 2, 3].take cfg.numChips

/-- `selectLines(mask)` (R67): every configured line, low if its mask bit is set, high otherwise. -/
def selectLines (cfg : Config) (mask : Byte) : List Event :=
  (csLines cfg).map fun i => .set (.csN i) (!mask.getLsbD i.val)

/-- One bit on the wire (R71): drive DATA, wait one propagation delay, pulse WR. -/
def bitEvents (cfg : Config) (b : Bool) : List Event :=
  [.set .data b, .wait cfg.tProp, .set .wr true, .set .wr false]

/-- `writeBits(v, n)` (R71). That WR is low when it begins (R75) is not checked here (DEDUCED, safe:
notes/assumptions/14.md). -/
def writeBitsEvents (cfg : Config) (v : Byte) (n : Nat) : List Event :=
  (msbFirst v n).flatMap (bitEvents cfg)

/-- `writeSingleBit()` (R73): one bit at `PAD_LEVEL`. -/
def padEvents (cfg : Config) : List Event := bitEvents cfg cfg.padLevel

/-- The data word of one frame-buffer byte (R48, R77): high nibble first. -/
def byteEvents (cfg : Config) (d : Byte) : List Event :=
  writeBitsEvents cfg (highNibble d) 4 ++ writeBitsEvents cfg (lowNibble d) 4

/-- The write-RAM frame of a buffer (R48): ID, 7-bit address zero, data. -/
def writeRamFrame (cfg : Config) (bytes : List Byte) : List Event :=
  writeBitsEvents cfg (cfg.idWr.setWidth 8) 3 ++ writeBitsEvents cfg 0 7 ++ bytes.flatMap (byteEvents cfg)

/-- The command frame (R49): one ID, then each code followed by one padding bit. -/
def commandFrame (cfg : Config) (codes : List Byte) : List Event :=
  writeBitsEvents cfg (cfg.idCmd.setWidth 8) 3 ++ codes.flatMap fun c => writeBitsEvents cfg c 8 ++ padEvents cfg

/-- One transaction: assert the mask, send a frame, deselect all (R69, R77, R86). -/
def transaction (cfg : Config) (mask : Byte) (frame : List Event) : List Event :=
  selectLines cfg mask ++ frame ++ selectLines cfg 0

/-! ## Derived views -/

/-- Chip `i` is selected: `level(CS_N[i]) = 0` (R19). -/
def Pins.selected (ps : Pins) (i : Fin 4) : Bool := ps.csN[i].level == .low

/-- The block is Idle: every configured line at level 1 and WR at level 0 (R26). -/
def Pins.idle (cfg : Config) (ps : Pins) : Bool :=
  (csLines cfg).all (fun i => ps.csN[i].level == .high) && ps.wr.level == .low

/-- The block is Selected: at least one configured line at level 0 (R26). -/
def Pins.anySelected (cfg : Config) (ps : Pins) : Bool := (csLines cfg).any ps.selected

/-- A pin the configuration has (R18). -/
def hasPin (cfg : Config) : Pin → Bool
  | .csN i => i.val < cfg.numChips
  | .wr => true
  | .data => true
  | .clk => cfg.hasClk

/-- The event is a pin transition from these pins: a `Set` whose level differs (R24). -/
def Event.transitionFrom (ps : Pins) : Event → Bool
  | .set p l => (ps.get p).level != .ofBool l
  | _ => false

/-- The edge trace: the events that are pin transitions, from pins `ps` on (R24). -/
def edgeTrace (ps : Pins) : List Event → List Event
  | [] => []
  | e :: es => (if e.transitionFrom ps then [e] else []) ++ edgeTrace (ps.apply e) es

/-- The levels of DATA at the strobes that chip `i` sees, from pins `ps` on (R70): a bit is received when WR is raised
while the chip is selected (that a rising edge latches is general knowledge: PRESUMED, unsafe, notes/assumptions/12.md). -/
def receivedLevels (i : Fin 4) (ps : Pins) : List Event → List Level
  | [] => []
  | e :: es =>
    (if e = .set .wr true ∧ ps.wr.level = .low ∧ ps.selected i then [ps.data.level] else [])
      ++ receivedLevels i (ps.apply e) es

end Sys2Proof.Machine
end

