-- ==== Sys2Proof/Machine/Ops.lean ====
section
/-! DEFINITION. The named operations over the frame buffer, the registers and the pins, raising a host fault and the
reset that alone leaves it, and the checks every operation passes first: spec/00_scope.md R13, spec/60_exceptions.md R92
to R94, spec/70_reset_and_hazards.md R103. -/

namespace Sys2Proof.Machine

/-- What an operation or a part of one answers. -/
abbrev Answer (α : Type) := Host.Outcome α Fault Refusal

/-- Go on with a value, or stop as the first part stopped. -/
def andThen {α β : Type} (a : Answer α) (k : α → Answer β) : Answer β :=
  match a with
  | .next x => k x
  | .fault r => .fault r
  | .refused r => .refused r

/-- `for x in xs`: the pseudocode's loop (R13). -/
def forEach {α : Type} (body : α → State → Answer State) : List α → State → Answer State
  | [], s => .next s
  | x :: xs, s => andThen (body x s) (forEach body xs)

/-- Collect what a loop reads. -/
def collect {α β : Type} (read : α → Answer β) : List α → Answer (List β)
  | [] => .next []
  | x :: xs => andThen (read x) fun y => andThen (collect read xs) fun ys => .next (y :: ys)

/-! ## The frame buffer -/

/-- The byte at an address, if something has written it. -/
def Memory.read (a : Nat) : Memory → Option Byte
  | [] => none
  | (k, b) :: m => if k = a then some b else Memory.read a m

/-- Write a byte, keeping addresses strictly rising. -/
def Memory.write (a : Nat) (v : Byte) : Memory → Memory
  | [] => [(a, v)]
  | (k, b) :: m =>
    if a < k then (a, v) :: (k, b) :: m
    else if a = k then (a, v) :: m
    else (k, b) :: Memory.write a v m

/-- Every address of the memory is above `a`. -/
def Memory.above (a : Nat) (m : Memory) : Bool := m.all fun cell => a < cell.1

/-- The canonical form: addresses strictly rising. No entry can equal what an unlisted address reads as, since an
unlisted address has no value. -/
def Memory.wf : Memory → Bool
  | [] => true
  | (k, _) :: m => Memory.above k m && Memory.wf m

/-- Byte `i` of channel `c`, if that byte exists and something has written it. -/
def State.byteAt (s : State) (c i : Nat) : Option Byte :=
  if c < s.cfg.channelCount ∧ i < s.cfg.len then Memory.read (fbAddr s.cfg c i) s.fb else none

/-- `FbRead(c, i)` (R13). -/
def fbRead (c i : Nat) (s : State) : Answer Byte :=
  if c < s.cfg.channelCount ∧ i < s.cfg.len then
    match Memory.read (fbAddr s.cfg c i) s.fb with
    | some b => .next b
    | none => .fault .frameBufferUnwritten
  else .fault .frameBufferRange

/-- `FbWrite(c, i, v)` (R13). -/
def fbWrite (c i : Nat) (v : Byte) (s : State) : Answer State :=
  if c < s.cfg.channelCount ∧ i < s.cfg.len then
    .next { s with fb := Memory.write (fbAddr s.cfg c i) v s.fb }
  else .fault .frameBufferRange

/-- The read-modify-write of one pixel of the active channel (R32, R58, R59). -/
def writePixelAt (on : Bool) (p : PixelAddr) (s : State) : Answer State :=
  andThen (fbRead s.activeChannel.toNat p.offset s) fun b =>
    fbWrite s.activeChannel.toNat p.offset (pixelInto on p.mask b) s

/-- Switch the pixel `(x, y)`; a silent no-op where the coordinate is out of range (R90). -/
def plotPixel (on : Bool) (x y : Byte) (s : State) : Answer State :=
  match translatePixel s.cfg x y with
  | none => .next s
  | some p => writePixelAt on p s

/-- Write one value to every byte of a channel, in ascending index order (R63). -/
def fillChannel (v : Byte) (c : Nat) (s : State) : Answer State :=
  forEach (fun i => fbWrite c i v) (List.range s.cfg.len) s

/-- Write 0 to every byte of every channel (R64, R82). -/
def zeroBuffer (s : State) : Answer State :=
  forEach (fillChannel 0) (List.range s.cfg.channelCount) s

/-- Every byte of the buffer in ascending channel-then-index order (R31, R77). -/
def readBuffer (s : State) : Answer (List Byte) :=
  andThen (collect (fun c => collect (fun i => fbRead c i s) (List.range s.cfg.len)) (List.range s.cfg.channelCount))
    fun channels => .next channels.flatten

/-! ## The pins and the trace -/

/-- Emit wire events: each reaches the pins and is appended to the trace (R18, R24). -/
def State.emit (evs : List Event) (s : State) : State :=
  { s with pins := s.pins.run evs, trace := s.trace ++ evs }

/-- `renderTo(t)` (R77): the whole buffer to chip `t` in one write-RAM frame. -/
def renderTo (t : Nat) (s : State) : Answer State :=
  andThen (readBuffer s) fun bytes =>
    .next (s.emit (transaction s.cfg (chipMask t) (writeRamFrame s.cfg bytes)))

/-! ## Faults, reset and the common checks -/

/-- `raise Fault(cause)` (R93): STATUS is written and nothing else changes. There is no vector, no saved state and no
mode change. -/
def State.raiseFault (cause : Cause) (s : State) : State := { s with status := statusFault s.status cause }

/-- The one return from a fault, the reset input (R94, R103, R104): the reset column in the same configuration. The
inputs the host has yet to present are the host's and stay (DEDUCED, safe: notes/assumptions/10.md). -/
def State.assertReset (s : State) : State := { State.resetWith s.cfg with pending := s.pending }

/-- The checks of R92 that come before those of the operation: the configuration is one the block has (R9), and a
halted block ignores the word (R94), which is a next state (DEDUCED, safe: notes/assumptions/7.md). -/
def unlessHalted (body : State → Answer State) (s : State) : Answer State :=
  if s.cfg.wellFormed then
    if s.faulted then .next s else body s
  else .refused .illFormedConfig

/-- The common checks of every operation but INIT (R92): before INIT it raises `NOT_INITIALIZED`. -/
def afterInit (body : State → Answer State) : State → Answer State :=
  unlessHalted fun s => if s.initDone then body s else .next (s.raiseFault .notInitialized)

/-- The common checks of INIT (R92): after INIT it raises `REINIT`. -/
def onceOnly (body : State → Answer State) : State → Answer State :=
  unlessHalted fun s => if s.initDone then .next (s.raiseFault .reinit) else body s

end Sys2Proof.Machine
end

