-- ==== Sys2Proof/Machine/Brightness.lean ====
section
/-! DEFINITION. The brightness controller: spec/45_brightness.md R86. -/

namespace Sys2Proof.Machine

/-- SET_BRIGHTNESS (R86): one transaction with one PWM command, or no event where the sentinel meets an invalid
target (R88). -/
def execSetBrightness (level selectionMask : Byte) (s : State) : Answer State :=
  afterInit (fun s =>
    match resolveMask s.cfg s.activeTarget selectionMask with
    | none => .next s
    | some mask => .next (s.emit (transaction s.cfg mask (commandFrame s.cfg [pwmCode s.cfg (clampLevel level)])))) s

end Sys2Proof.Machine
end

