-- ==== Sys2Proof/Machine/ChipSelect.lean ====
section
/-! DEFINITION. The chip-select operation: spec/41_chip_select.md R68. -/

namespace Sys2Proof.Machine

/-- SELECT (R68); `SELECT 0` deselects all (R69). The host owns the window it opens (R107). -/
def execSelect (mask : Byte) (s : State) : Answer State :=
  afterInit (fun s => .next (s.emit (selectLines s.cfg mask))) s

end Sys2Proof.Machine
end

