-- ==== Sys2Proof/Machine/Encoder.lean ====
section
/-! DEFINITION. The serial encoder's operations: spec/42_serial_encoder.md R72, R74. -/

namespace Sys2Proof.Machine

/-- WRITE_BITS (R72): a count above 8 raises `BAD_BIT_COUNT` before any event (R92). -/
def execWriteBits (value count : Byte) (s : State) : Answer State :=
  afterInit (fun s =>
    if count.toNat > 8 then .next (s.raiseFault .badBitCount)
    else .next (s.emit (writeBitsEvents s.cfg value count.toNat))) s

/-- WRITE_SINGLE_BIT (R74). -/
def execWriteSingleBit (s : State) : Answer State := afterInit (fun s => .next (s.emit (padEvents s.cfg))) s

end Sys2Proof.Machine
end

