-- ==== Sys2Proof/Machine/Init.lean ====
section
/-! DEFINITION. The initialization sequencer: spec/44_initialize.md R82 to R84. -/

namespace Sys2Proof.Machine

/-- Phase 1 (R82): configure the pins as outputs, deselect all, drive WR low (92 D7). -/
def initPinEvents (cfg : Config) : List Event :=
  (csLines cfg).map (fun i => .cfg (.csN i)) ++ [.cfg .wr, .cfg .data] ++ selectLines cfg 0 ++ [.set .wr false]

/-- `INIT_COMMANDS` (R83), in that order. -/
def initCommands (cfg : Config) : List Byte :=
  [cfg.cmdSysDis, cfg.cmdCom, cfg.cmdSysEn, cfg.cmdLedOn, pwmCode cfg cfg.defaultPwmLevel]

/-- Phase 3 (R82): broadcast the commands to every chip in one transaction (R84). -/
def broadcastEvents (cfg : Config) : List Event :=
  transaction cfg (broadcastMask cfg) (commandFrame cfg (initCommands cfg))

/-- The four phases of INIT (R82). -/
def initSequence (s : State) : Answer State :=
  andThen (zeroBuffer (s.emit (initPinEvents s.cfg))) fun s =>
    let s := { s with activeChannel := 0 }
    let s := s.emit (broadcastEvents s.cfg)
    andThen (forEach renderTo (List.range s.cfg.numChips) s) fun s =>
      .next { s with activeTarget := 0, status := statusInitDone s.status }

/-- INIT (R82): allowed once (R92). -/
def execInit (s : State) : Answer State := onceOnly initSequence s

end Sys2Proof.Machine
end

