-- ==== Sys2Proof/Machine/Pixel.lean ====
section
/-! DEFINITION. The frame-buffer operations: spec/40_pixel_addressing.md R58 to R65. None drives a pin (R66). -/

namespace Sys2Proof.Machine

/-- SET_PIXEL (R58). -/
def execSetPixel (x y : Byte) (s : State) : Answer State := afterInit (plotPixel true x y) s

/-- CLEAR_PIXEL (R59). -/
def execClearPixel (x y : Byte) (s : State) : Answer State := afterInit (plotPixel false x y) s

/-- WRITE_PIXEL (R60): any nonzero value is "on". -/
def execWritePixel (x y value : Byte) (s : State) : Answer State := afterInit (plotPixel (value != 0) x y) s

/-- RESULT for a coordinate (R61): the addressed bit, 0 where the coordinate is out of range. -/
def readPixel (x y : Byte) (s : State) : Answer State :=
  match translatePixel s.cfg x y with
  | none => .next { s with result := 0 }
  | some p =>
    andThen (fbRead s.activeChannel.toNat p.offset s) fun b => .next { s with result := (b >>> p.bitpos) &&& 1#8 }

/-- GET_PIXEL (R61). -/
def execGetPixel (x y : Byte) (s : State) : Answer State := afterInit (readPixel x y) s

/-- The eight pixels of one column (R62): pixel `(position, y)` becomes bit `y`. -/
def plotColumn (position byteValue : Byte) (s : State) : Answer State :=
  if s.cfg.outputSize ≤ position.toNat then .next s
  else forEach (fun y => plotPixel (byteValue.getLsbD y) position (BitVec.ofNat 8 y)) (List.range 8) s

/-- SET_COLUMN (R62). -/
def execSetColumn (position byteValue : Byte) (s : State) : Answer State := afterInit (plotColumn position byteValue) s

/-- FILL (R63): the active channel only. -/
def execFill (s : State) : Answer State := afterInit (fun s => fillChannel 0xFF s.activeChannel.toNat s) s

/-- CLEAR (R64): every channel. -/
def execClear (s : State) : Answer State := afterInit zeroBuffer s

/-- SELECT_CHANNEL (R65): a channel that does not exist is a silent no-op. -/
def execSelectChannel (channel : Byte) (s : State) : Answer State :=
  afterInit (fun s => if s.cfg.channelCount ≤ channel.toNat then .next s else .next { s with activeChannel := channel }) s

end Sys2Proof.Machine
end

