-- ==== Sys2Proof/Machine/Render.lean ====
section
/-! DEFINITION. The renderer and the render target: spec/43_render.md R78, R79. -/

namespace Sys2Proof.Machine

/-- RENDER (R78): no event where the target is not a configured chip. -/
def execRender (s : State) : Answer State :=
  afterInit (fun s =>
    if s.cfg.numChips ≤ s.activeTarget.toNat then .next s else renderTo s.activeTarget.toNat s) s

/-- SELECT_TARGET (R79): stored without validation. -/
def execSelectTarget (target : Byte) (s : State) : Answer State :=
  afterInit (fun s => .next { s with activeTarget := target }) s

end Sys2Proof.Machine
end

