-- ==== Sys2Proof/Machine/Dispatch.lean ====
section
/-! DEFINITION. One arm per operation of spec/opcode_table.json. -/

namespace Sys2Proof.Machine

def exec (i : Instr) (s : State) : Host.Outcome State Fault Refusal :=
  match i with
  | .init => Sys2Proof.Machine.execInit s
  | .select mask => Sys2Proof.Machine.execSelect mask s
  | .writeBits value count => Sys2Proof.Machine.execWriteBits value count s
  | .writeSingleBit => Sys2Proof.Machine.execWriteSingleBit s
  | .setPixel x y => Sys2Proof.Machine.execSetPixel x y s
  | .clearPixel x y => Sys2Proof.Machine.execClearPixel x y s
  | .writePixel x y value => Sys2Proof.Machine.execWritePixel x y value s
  | .setColumn position byteValue => Sys2Proof.Machine.execSetColumn position byteValue s
  | .fill => Sys2Proof.Machine.execFill s
  | .clear => Sys2Proof.Machine.execClear s
  | .render => Sys2Proof.Machine.execRender s
  | .setBrightness level selectionMask => Sys2Proof.Machine.execSetBrightness level selectionMask s
  | .selectTarget target => Sys2Proof.Machine.execSelectTarget target s
  | .selectChannel channel => Sys2Proof.Machine.execSelectChannel channel s
  | .getPixel x y => Sys2Proof.Machine.execGetPixel x y s

end Sys2Proof.Machine
end

