-- ==== Sys2Proof/Machine/Present.lean ====
section
/-! DEFINITION. What the block does with one input of the host: the check order of spec/60_exceptions.md R92 for a word,
and reset (spec/70_reset_and_hazards.md R103). -/

namespace Sys2Proof.Machine

/-- `execute(word)` (R92): a halted block ignores the word, an illegal word raises `ILLEGAL_OP`, any other word runs its
operation, whose meaning makes the remaining checks. -/
def executeWord (w : OpWord) (s : State) : Answer State :=
  unlessHalted (fun s =>
    match decode w with
    | .error _ => .next (s.raiseFault .illegalOp)
    | .ok i => exec i s) s

/-- One input of the host, presented to the block. -/
def acceptInput (input : HostInput) (s : State) : Answer State :=
  match input with
  | .word w => executeWord w s
  | .reset => .next s.assertReset

/-- The host presents its next input and the block accepts it; with nothing presented the block waits (R103). The block
runs no ill-formed configuration (R9). -/
def acceptNext (s : State) : Answer State :=
  if s.cfg.wellFormed then
    match s.pending with
    | [] => .next s
    | input :: rest => acceptInput input { s with pending := rest }
  else .refused .illFormedConfig

/-- Present a word as the very next input. -/
def State.present (w : OpWord) (s : State) : State := { s with pending := .word w :: s.pending }

end Sys2Proof.Machine
end

