-- ==== Sys2Proof/Machine/Step.lean ====
section
/-! DEFINITION. One step of the block: one host operation from start to completion (spec/00_scope.md R6). -/

namespace Sys2Proof.Machine

/-- One step: the block accepts the host's next input and completes it (R6, R108). -/
def step (s : State) : Host.Outcome State Fault Refusal := acceptNext s

/-- The state in which the very next step runs the word: the host presents it next (DESIGN CHOICE, safe:
notes/assumptions/4.md, 17.md). -/
def State.withFetchWord (s : State) (nbits w : Nat) : State := s.present (BitVec.ofNat 32 (w % 2 ^ nbits))

end Sys2Proof.Machine
end

