-- ==== Sys2Proof/Machine/Assembler.lean ====
section
/-! DEFINITION. The assembly of a host program, one operation per line, and its two pseudo-instructions:
spec/30_encoding.md R53, R54. -/

namespace Sys2Proof.Machine

/-- An operand of a line: a numeral in `[0, 255]`, or the spelling `CURRENT` of the sentinel (R54). -/
inductive Operand where
  | num (v : Byte)
  | current
deriving DecidableEq, Repr

/-- The value of a digit; 99, a digit of no base, for any other character. -/
def digitValue (ch : Char) : Nat :=
  let n := ch.toNat
  if 48 ≤ n ∧ n ≤ 57 then n - 48
  else if 65 ≤ n ∧ n ≤ 70 then n - 55
  else if 97 ≤ n ∧ n ≤ 102 then n - 87
  else 99

/-- The value of a digit string, after the value so far. -/
def digitsValue (base acc : Nat) : List Char → Option Nat
  | [] => some acc
  | ch :: chs => if digitValue ch < base then digitsValue base (acc * base + digitValue ch) chs else none

/-- A digit string has at least one digit. -/
def baseNumeral (base : Nat) : List Char → Option Nat
  | [] => none
  | ch :: chs => digitsValue base 0 (ch :: chs)

/-- A decimal, `0x` hexadecimal or `0b` binary numeral (R53). -/
def numeralValue : List Char → Option Nat
  | '0' :: 'x' :: ds => baseNumeral 16 ds
  | '0' :: 'b' :: ds => baseNumeral 2 ds
  | ds => baseNumeral 10 ds

/-- An operand; any numeral outside `[0, 255]` is rejected (R53). -/
def parseOperand (text : List Char) : Option Operand :=
  if text = ['C', 'U', 'R', 'R', 'E', 'N', 'T'] then some .current
  else match numeralValue text with
    | some n => if n < 256 then some (.num (BitVec.ofNat 8 n)) else none
    | none => none

/-- The text without spaces at either end. -/
def trimSpaces (text : List Char) : List Char :=
  ((text.dropWhile (· == ' ')).reverse.dropWhile (· == ' ')).reverse

/-- The parts of a text between commas. -/
def splitCommas : List Char → List (List Char)
  | [] => [[]]
  | ch :: chs =>
    match splitCommas chs with
    | [] => [[]]
    | part :: parts => if ch = ',' then [] :: part :: parts else (ch :: part) :: parts

/-- The operands of a line, separated by commas; an empty text has none. -/
def parseOperands (text : List Char) : Option (List Operand) :=
  if trimSpaces text = [] then some [] else (splitCommas text).mapM fun part => parseOperand (trimSpaces part)

/-- The operations without an operand, and the pseudo-instruction `DESELECT`, which is `SELECT 0` (R53, R54). -/
def assembleNone (mnemonic : String) : Option Instr :=
  if mnemonic = "INIT" then some .init
  else if mnemonic = "DESELECT" then some (.select 0)
  else if mnemonic = "WRITE_SINGLE_BIT" then some .writeSingleBit
  else if mnemonic = "FILL" then some .fill
  else if mnemonic = "CLEAR" then some .clear
  else if mnemonic = "RENDER" then some .render
  else none

/-- The operations with one operand. -/
def assembleOne (mnemonic : String) (a : Byte) : Option Instr :=
  if mnemonic = "SELECT" then some (.select a)
  else if mnemonic = "SELECT_TARGET" then some (.selectTarget a)
  else if mnemonic = "SELECT_CHANNEL" then some (.selectChannel a)
  else none

/-- The operations with two operands. -/
def assembleTwo (mnemonic : String) (a b : Byte) : Option Instr :=
  if mnemonic = "WRITE_BITS" then some (.writeBits a b)
  else if mnemonic = "SET_PIXEL" then some (.setPixel a b)
  else if mnemonic = "CLEAR_PIXEL" then some (.clearPixel a b)
  else if mnemonic = "SET_COLUMN" then some (.setColumn a b)
  else if mnemonic = "SET_BRIGHTNESS" then some (.setBrightness a b)
  else if mnemonic = "GET_PIXEL" then some (.getPixel a b)
  else none

/-- The operation of a mnemonic and its operands, in the order `A, B, C` of R45; a missing or extra operand is rejected
(R53). `CURRENT` is `CURRENT_TARGET` as a selection mask (R54). -/
def assemble (cfg : Config) (mnemonic : String) : List Operand → Option Instr
  | [] => assembleNone mnemonic
  | [.num a] => assembleOne mnemonic a
  | [.num a, .num b] => assembleTwo mnemonic a b
  | [.num a, .num b, .num c] => if mnemonic = "WRITE_PIXEL" then some (.writePixel a b c) else none
  | [.num a, .current] => if mnemonic = "SET_BRIGHTNESS" then some (.setBrightness a cfg.currentTarget) else none
  | _ => none

/-- One line of assembly: a mnemonic, then a space and the operands if there are any (R53; the details of the text are a
DESIGN CHOICE, safe: notes/assumptions/11.md). -/
def assembleLine (cfg : Config) (line : String) : Option Instr :=
  let text := trimSpaces line.toList
  match parseOperands (text.dropWhile (· != ' ')) with
  | some operands => assemble cfg (String.ofList (text.takeWhile (· != ' '))) operands
  | none => none

/-- The words of a program, if every line assembles. -/
def assembleProgram (cfg : Config) (lines : List String) : Option (List OpWord) :=
  lines.mapM fun line => (assembleLine cfg line).map encode

end Sys2Proof.Machine
end

