-- ==== Sys2Proof/Machine/Observe.lean ====
section
/-! DEFINITION. What is observed of the block and of a run: spec/00_scope.md R7, spec/60_exceptions.md R100,
spec/70_reset_and_hazards.md R113, R114. -/

namespace Sys2Proof.Machine

/-- The host-visible outputs: STATUS, RESULT and the pins (R22, R23, R100). Reading them changes nothing. -/
structure HostOutputs where
  status : Byte
  result : Byte
  pins : Pins
deriving DecidableEq, Repr

/-- The outputs in a state. -/
def State.outputs (s : State) : HostOutputs := ⟨s.status, s.result, s.pins⟩

/-- The end state of a run (R114): frame buffer, registers, STATUS and wire trace since reset. -/
structure EndState where
  fb : Memory
  activeTarget : Byte
  activeChannel : Byte
  result : Byte
  status : Byte
  trace : List Event
deriving DecidableEq, Repr

/-- What a run leaves to be observed (R7, R114). -/
def State.endState (s : State) : EndState :=
  ⟨s.fb, s.activeTarget, s.activeChannel, s.result, s.status, s.trace⟩

/-- The state in which the host will present a program, a finite list of operation words (R114). -/
def State.load (program : List OpWord) (s : State) : State := { s with pending := program.map .word }

/-- A run has ended: the last word has been executed, or a word raised a fault (R114). -/
def State.runEnded (s : State) : Bool := s.faulted || s.pending.isEmpty

/-! ## Time (lower bounds only) -/

/-- The time one event takes at least (R13). -/
def Event.minTime : Event → Nat
  | .wait t => t
  | _ => 0

/-- The least wall-clock time of a list of events (R113): the sum of its waits (DESIGN CHOICE, safe:
notes/assumptions/13.md). -/
def minTime (evs : List Event) : Nat := (evs.map Event.minTime).sum

/-- The number of `Wait` events. -/
def waitCount (evs : List Event) : Nat := evs.countP fun e => match e with | .wait _ => true | _ => false

/-- The least time of a list of events where each WR pulse is annotated with `T_WR_HIGH` (R76, R110). The block inserts
no such wait. -/
def annotatedTime (cfg : Config) (evs : List Event) : Nat :=
  minTime evs + cfg.tWrHigh * evs.countP fun e => e == .set .wr true

/-- The delay element meets the chip's minimum data set-up time of about 50 ns (R109); a configuration that does not is
outside the spec's guarantee, and is not refused (DEDUCED, unsafe for a claim that the chips latch right bits there:
notes/assumptions/15.md). -/
def meetsPropagationDelay (cfg : Config) : Bool := 50 ≤ cfg.tProp

/-! ## The chip RAM space (R30, R37) -/

/-- The chip address of a nibble of byte `(c, i)` in a render (R37). -/
def chipNibbleAddress (cfg : Config) (c i : Nat) (high : Bool) : Nat :=
  2 * (c * cfg.len + i) + if high then 0 else 1

end Sys2Proof.Machine
end

