-- ==== Sys2Proof/Safety.lean ====
section
/-! DEFINITION. What the states of a safe run look like: the states in which operations execute (spec/60_exceptions.md
R92), the invariant of every state that a run from reset reaches (spec/10_state.md), and the discipline of the write
strobe (spec/42_serial_encoder.md R75, R76). -/

namespace Sys2Proof.Machine

/-- The block runs operations: its configuration is well formed (R9), it has not faulted (R94), INIT has completed
(R92). -/
structure State.Running (s : State) : Prop where
  config : s.cfg.wellFormed = true
  clean : s.faulted = false
  started : s.initDone = true

/-- The block runs and its frame buffer is there: the active channel exists (R21) and every byte of every channel, and
no other address, holds a value (R25). -/
structure State.Ready (s : State) : Prop extends State.Running s where
  channel : s.activeChannel.toNat < s.cfg.channelCount
  buffer : s.fb.map Prod.fst = List.range s.cfg.bufferBytes

/-- The invariant of the block: it holds at reset of a well-formed configuration, and every step keeps it. -/
structure State.Inv (s : State) : Prop where
  /-- The configuration is well formed (R9). -/
  config : s.cfg.wellFormed = true
  /-- `ACTIVE_CHANNEL < CHANNEL_COUNT` at all times (R21). -/
  channel : s.activeChannel.toNat < s.cfg.channelCount
  /-- Bits 7:5 of STATUS read 0 (R22). -/
  reserved : s.statusReserved = 0
  /-- `CAUSE` is 0 while `FAULT = 0` (R22). -/
  noCause : s.faulted = false → s.causeCode = 0
  /-- `CAUSE` is one of the four causes while `FAULT = 1` (R91). -/
  oneCause : s.faulted = true → 1 ≤ s.causeCode.toNat ∧ s.causeCode.toNat ≤ 4
  /-- Bits 7:1 of RESULT are 0 (R23). -/
  result : s.result.toNat < 2
  /-- The pins are where the trace put them since reset (R18, R24). -/
  pins : s.pins = Pins.reset.run s.trace
  /-- Before INIT nothing has happened: reset values, no event (R25, R29, R93), and no byte of the
  buffer, which is the model's form of "unspecified" (notes/assumptions/5.md). -/
  fresh : s.initDone = false → s.fb = [] ∧ s.trace = [] ∧ s.activeTarget = 0 ∧ s.activeChannel = 0 ∧ s.result = 0
  /-- After INIT every byte of the buffer holds a value (R25), and no other address of the model's memory
  (notes/assumptions/5.md). -/
  buffer : s.initDone = true → s.fb.map Prod.fst = List.range s.cfg.bufferBytes
  /-- After INIT every configured chip-select line is an output at a known level (R29). -/
  lines : s.initDone = true → ∀ i : Fin 4, i.val < s.cfg.numChips →
    (s.pins.get (.csN i)).mode = .output ∧ (s.pins.get (.csN i)).level ≠ .unknown
  /-- After INIT the write strobe is an output and low between operations (R27). -/
  strobe : s.initDone = true → s.pins.get .wr = ⟨.output, .low⟩
  /-- After INIT the data line is an output at a known level (R29). -/
  data : s.initDone = true → (s.pins.get .data).mode = .output ∧ (s.pins.get .data).level ≠ .unknown
  /-- CLK and the lines of chips that are not configured are never touched (R18, 92 D19; that State has them:
  notes/assumptions/18.md). -/
  untouched : ∀ p : Pin, (p = .clk ∨ hasPin s.cfg p = false) → s.pins.get p = .reset

/-- Every rise of WR in the trace follows the driving of DATA and one propagation delay (R76). -/
def StrobesTimed (tProp : Nat) (trace : List Event) : Prop :=
  ∀ before after, trace = before ++ .set .wr true :: after →
    ∃ earlier b, before = earlier ++ [.set .data b, .wait tProp]

/-- Every `Set(WR, 1)` of the trace finds WR low, which is the encoder's precondition (R75), and every configured pin at
a known level (R111). -/
def StrobesRise (cfg : Config) (trace : List Event) : Prop :=
  ∀ before after, trace = before ++ .set .wr true :: after →
    ((Pins.reset.run before).get .wr).level = .low ∧
    ∀ p : Pin, p ≠ .clk → hasPin cfg p = true → ((Pins.reset.run before).get p).level ≠ .unknown

end Sys2Proof.Machine
end

