-- ==== Sys2Proof/Certificates/Slice0/Obligations.lean ====
section
/-! DEFINITION. The statements about the block, each from a numbered rule of spec/ or from several. The helpers of
`Sys2Proof.Statement` spell the spec's own notation (spec/95_test_vectors.md: `bit(b)`, `S`, `W`, `C`) and the shapes the
rules of the operations share (spec/40_pixel_addressing.md: encoding, effect, frame, exceptions). -/

namespace Sys2Proof.Statement

open Sys2Proof.Machine

/-- The configured chip-select lines `CS_N[0 .. NUM_CHIPS-1]`, ascending. -/
def configuredLines (cfg : Config) : List (Fin 4) := (List.finRange 4).filter fun i => i.val < cfg.numChips

/-- The events of R67: each configured line in ascending order, low if its mask bit is set, high otherwise. -/
def lineWrites (cfg : Config) (mask : Byte) : List Event :=
  (configuredLines cfg).map fun i => if mask.getLsbD i.val then .set (.csN i) false else .set (.csN i) true

/-- The low `n` bits of `v`, bit `n-1` first and bit 0 last (R12). -/
def bitsOf (v : Byte) (n : Nat) : List Bool := (List.range n).map fun k => v.getLsbD (n - 1 - k)

/-- `bit(b)` for each bit: drive DATA, wait, pulse WR high then low (R71). -/
def sendBits (cfg : Config) (bits : List Bool) : List Event :=
  bits.flatMap fun b => [.set .data b, .wait cfg.tProp, .set .wr true, .set .wr false]

/-- The bits of the write-RAM frame of a buffer (R48): ID, seven zeros, each byte from bit 7 to bit 0 (R36). -/
def ramFrameBits (cfg : Config) (bytes : List Byte) : List Bool :=
  bitsOf (cfg.idWr.setWidth 8) 3 ++ List.replicate 7 false ++ bytes.flatMap fun d => bitsOf d 8

/-- The bits of a command frame (R49): ID, then each code and its padding bit. -/
def commandFrameBits (cfg : Config) (codes : List Byte) : List Bool :=
  bitsOf (cfg.idCmd.setWidth 8) 3 ++ codes.flatMap fun c => bitsOf c 8 ++ [cfg.padLevel]

/-- `bytes` is the frame buffer in channel-then-index order (R31). -/
def BufferIs (s : State) (bytes : List Byte) : Prop :=
  bytes.length = s.cfg.channelCount * s.cfg.len ∧
    ∀ c i, c < s.cfg.channelCount → i < s.cfg.len → bytes[c * s.cfg.len + i]? = s.byteAt c i

/-- Only the frame buffer may differ. -/
def OnlyBuffer (s t : State) : Prop := t = { s with fb := t.fb }

/-- Only the pins and the trace may differ. -/
def OnlyWire (s t : State) : Prop := t = { s with pins := t.pins, trace := t.trace }

/-- Every address of the frame buffer outside `stored` reads as before. -/
def KeptOutside (s t : State) (stored : Nat → Prop) : Prop :=
  ∀ a, ¬ stored a → Memory.read a t.fb = Memory.read a s.fb

/-- Before INIT the operation raises `NOT_INITIALIZED` and has no other effect (R91). -/
def FaultsBeforeInit (i : Instr) : Prop :=
  ∀ s : State, s.cfg.wellFormed = true → s.faulted = false → s.initDone = false → exec i s = .next (s.raiseFault .notInitialized)

/-- A word of the operation code with a bit set where `zero` has one is illegal (R46). -/
def FaultsOnStrayBits (op : BitVec 4) (zero : OpWord) : Prop :=
  ∀ (s : State) (w : OpWord), s.cfg.wellFormed = true → s.faulted = false → fieldOp w = op → w &&& zero ≠ 0 →
    executeWord w s = .next (s.raiseFault .illegalOp)

/-- The word with the number `n` is the operation's (R45). -/
def WordIs (i : Instr) (n : Nat) : Prop := decode (BitVec.ofNat 32 n) = .ok i ∧ (encode i).toNat = n

/-- SET_PIXEL's, CLEAR_PIXEL's and WRITE_PIXEL's effect on a ready block (R58 to R60): the addressed byte of the active
channel becomes `change mask byte`, nothing else changes; an invalid coordinate is a silent no-op. -/
def PlotsPixel (i : Instr) (x y : Byte) (change : Byte → Byte → Byte) : Prop :=
  ∀ s : State, s.Ready →
    (∀ p, translatePixel s.cfg x y = some p → ∃ t b,
      exec i s = .next t ∧
      s.byteAt s.activeChannel.toNat p.offset = some b ∧
      t.byteAt s.activeChannel.toNat p.offset = some (change p.mask b) ∧
      KeptOutside s t (· = fbAddr s.cfg s.activeChannel.toNat p.offset) ∧
      OnlyBuffer s t) ∧
    (translatePixel s.cfg x y = none → exec i s = .next s)

/-- The frame-buffer operations of spec/40_pixel_addressing.md. -/
def isBufferOperation : Instr → Bool
  | .init => false
  | .select _ => false
  | .writeBits _ _ => false
  | .writeSingleBit => false
  | .setPixel _ _ => true
  | .clearPixel _ _ => true
  | .writePixel _ _ _ => true
  | .setColumn _ _ => true
  | .fill => true
  | .clear => true
  | .render => false
  | .setBrightness _ _ => false
  | .selectTarget _ => false
  | .selectChannel _ => true
  | .getPixel _ _ => true

/-- The rows of the opcode map (R45): mnemonic, match, mask. -/
def opcodeMap : List (String × OpWord × OpWord) :=
  [("INIT", 0x10000000, 0xFFFFFFFF), ("SELECT", 0x20000000, 0xFF00FFFF), ("WRITE_BITS", 0x30000000, 0xFF0000FF),
   ("WRITE_SINGLE_BIT", 0x40000000, 0xFFFFFFFF), ("SET_PIXEL", 0x50000000, 0xFF0000FF)] ++
  [("CLEAR_PIXEL", 0x60000000, 0xFF0000FF), ("WRITE_PIXEL", 0x70000000, 0xFF000000),
   ("SET_COLUMN", 0x80000000, 0xFF0000FF), ("FILL", 0x90000000, 0xFFFFFFFF), ("CLEAR", 0xA0000000, 0xFFFFFFFF)] ++
  [("RENDER", 0xB0000000, 0xFFFFFFFF), ("SET_BRIGHTNESS", 0xC0000000, 0xFF0000FF),
   ("SELECT_TARGET", 0xD0000000, 0xFF00FFFF), ("SELECT_CHANNEL", 0xE0000000, 0xFF00FFFF),
   ("GET_PIXEL", 0xF0000000, 0xFF0000FF)]

/-- The fields a row marks 0 (R45), by operation code. -/
def zeroFields (op : BitVec 4) : OpWord :=
  if op = 0x2#4 ∨ op = 0xD#4 ∨ op = 0xE#4 then 0x0000FFFF
  else if op = 0x7#4 then 0
  else if op = 0x3#4 ∨ op = 0x5#4 ∨ op = 0x6#4 ∨ op = 0x8#4 ∨ op = 0xC#4 ∨ op = 0xF#4 then 0x000000FF
  else 0x00FFFFFF

/-- An illegal word (R46). -/
def IllegalWord (w : OpWord) : Prop := fieldOp w = 0 ∨ fieldReserved w ≠ 0 ∨ w &&& zeroFields (fieldOp w) ≠ 0

/-- The operands of an operation in the order `A, B, C` (R53). -/
def operandsOf : Instr → List Operand
  | .init => []
  | .select a => [.num a]
  | .writeBits a b => [.num a, .num b]
  | .writeSingleBit => []
  | .setPixel a b => [.num a, .num b]
  | .clearPixel a b => [.num a, .num b]
  | .writePixel a b c => [.num a, .num b, .num c]
  | .setColumn a b => [.num a, .num b]
  | .fill => []
  | .clear => []
  | .render => []
  | .setBrightness a b => [.num a, .num b]
  | .selectTarget a => [.num a]
  | .selectChannel a => [.num a]
  | .getPixel a b => [.num a, .num b]

/-- The five codes of INIT's broadcast, in the order of R83. -/
def initCodes (cfg : Config) : List Byte :=
  [cfg.cmdSysDis, cfg.cmdCom, cfg.cmdSysEn, cfg.cmdLedOn, cfg.cmdPwmBase ||| BitVec.ofNat 8 (cfg.defaultPwmLevel - 1)]

/-- What INIT sends (R82), where the four phases follow one another and each render sends an all-zero buffer. -/
def initTrace (cfg : Config) : List Event :=
  (configuredLines cfg).map (fun i => .cfg (.csN i)) ++ [.cfg .wr, .cfg .data] ++ lineWrites cfg 0 ++ [.set .wr false] ++
  (lineWrites cfg (BitVec.ofNat 8 (2 ^ cfg.numChips - 1)) ++
    sendBits cfg (commandFrameBits cfg (initCodes cfg)) ++ lineWrites cfg 0) ++
  (List.range cfg.numChips).flatMap fun k =>
    lineWrites cfg (BitVec.ofNat 8 (2 ^ k)) ++
      sendBits cfg (ramFrameBits cfg (List.replicate (cfg.channelCount * cfg.len) 0)) ++ lineWrites cfg 0

/-- The number of bits a list of events sends, and the levels they carry: one `Set(DATA, _)` each. -/
def dataLevels (evs : List Event) : List Bool :=
  evs.filterMap fun e => match e with | .set .data b => some b | _ => none

/-- The events appended by an operation that raises no fault, and how many of them are waits (R113). -/
def eventCount (s : State) : Instr → Nat × Nat
  | .select _ => (s.cfg.numChips, 0)
  | .writeBits _ count => (4 * count.toNat, count.toNat)
  | .writeSingleBit => (4, 1)
  | .render =>
    if s.activeTarget.toNat < s.cfg.numChips then
      (2 * s.cfg.numChips + 40 + 32 * (s.cfg.channelCount * s.cfg.len), 10 + 8 * (s.cfg.channelCount * s.cfg.len))
    else (0, 0)
  | .setBrightness _ mask =>
    if mask = s.cfg.currentTarget ∧ s.cfg.numChips ≤ s.activeTarget.toNat then (0, 0) else (2 * s.cfg.numChips + 48, 12)
  | .init =>
    (4 * s.cfg.numChips + 195 +
      s.cfg.numChips * (2 * s.cfg.numChips + 40 + 32 * (s.cfg.channelCount * s.cfg.len)),
     48 + s.cfg.numChips * (10 + 8 * (s.cfg.channelCount * s.cfg.len)))
  | .setPixel _ _ => (0, 0)
  | .clearPixel _ _ => (0, 0)
  | .writePixel _ _ _ => (0, 0)
  | .setColumn _ _ => (0, 0)
  | .fill => (0, 0)
  | .clear => (0, 0)
  | .selectTarget _ => (0, 0)
  | .selectChannel _ => (0, 0)
  | .getPixel _ _ => (0, 0)

end Sys2Proof.Statement

open Sys2Proof Sys2Proof.Machine Sys2Proof.Statement

/-! ## Encoding -/

/-- No bit of an encoding is dropped: every operation, with every operand value, decodes from its own word (R45). -/
def Obligations.DecodeEncodeRoundTrip : Prop := ∀ i : Instr, decode (encode i) = .ok i

/-- Each legal word has one meaning: the operation it decodes to encodes to that word again (R45). -/
def Obligations.EncodeDecodeRoundTrip : Prop := ∀ (w : OpWord) (i : Instr), decode w = .ok i → encode i = w

/-- The worked encodings of R55, through the assembler, and the decoding of the same words. -/
def Obligations.WorkedEncodings : Prop :=
  (assembleLine .standard "SET_PIXEL 31, 7").map encode = some 0x501F0700 ∧
  (assembleLine .standard "SET_BRIGHTNESS 8, 0b0011").map encode = some 0xC0080300 ∧
  (assembleLine .standard "SET_BRIGHTNESS 16, CURRENT").map encode = some 0xC0101000 ∧
  (assembleLine .standard "WRITE_BITS 0x05, 3").map encode = some 0x30050300 ∧
  (assembleLine .standard "DESELECT").map encode = some 0x20000000 ∧
  (assembleLine .standard "RENDER").map encode = some 0xB0000000 ∧
  decode 0x501F0700 = .ok (.setPixel 31 7) ∧ decode 0xC0080300 = .ok (.setBrightness 8 3) ∧
  decode 0xC0101000 = .ok (.setBrightness 16 0x10) ∧ decode 0x30050300 = .ok (.writeBits 5 3) ∧
  decode 0x20000000 = .ok (.select 0) ∧ decode 0xB0000000 = .ok .render

/-- The decoder is the opcode map of R45: a word decodes to the operation of the row whose match equals `word & mask`,
some operation is decoded wherever a row matches, and no two rows match one word. -/
def Obligations.DecoderFollowsOpcodeMap : Prop :=
  (∀ (w : OpWord) (i : Instr), decode w = .ok i → ∃ row ∈ opcodeMap, row.1 = i.mnemonic ∧ w &&& row.2.2 = row.2.1) ∧
  (∀ w : OpWord, ∀ row ∈ opcodeMap, w &&& row.2.2 = row.2.1 → ∃ i, decode w = .ok i ∧ i.mnemonic = row.1) ∧
  (∀ w : OpWord, ∀ r ∈ opcodeMap, ∀ q ∈ opcodeMap, w &&& r.2.2 = r.2.1 → w &&& q.2.2 = q.2.1 → r = q)

/-- R46: an illegal word raises `ILLEGAL_OP` and has no other effect; every other word decodes, so there is no hint, no
no-op encoding and no custom space. -/
def Obligations.IllegalWordRaisesIllegalOp : Prop :=
  (∀ (s : State) (w : OpWord), s.cfg.wellFormed = true → s.faulted = false → IllegalWord w →
    ∃ t, executeWord w s = .next t ∧ t = { s with status := t.status } ∧
      t.faulted = true ∧ t.causeCode = 1 ∧ t.initDone = s.initDone ∧ t.statusReserved = s.statusReserved) ∧
  (∀ w : OpWord, ¬ IllegalWord w → ∃ i, decode w = .ok i)

/-- The assembler takes every operation by its mnemonic and its operands `A, B, C`, and nothing but those, so that a missing
or extra operand is rejected (R53); beside them it takes only the pseudo-instructions: `DESELECT`, which is `SELECT 0`, and
`CURRENT`, which is the sentinel as the mask of SET_BRIGHTNESS (R54). How a line's text becomes a mnemonic and operands is
the model's choice in its details (notes/assumptions/11.md). -/
def Obligations.AssemblerFollowsOpcodeMap : Prop :=
  ∀ cfg : Config, (∀ i : Instr, assemble cfg i.mnemonic (operandsOf i) = some i) ∧
    (∀ m ops i, assemble cfg m ops = some i →
      (m = i.mnemonic ∧ ops = operandsOf i) ∨
      (m = "SET_BRIGHTNESS" ∧ ∃ level, ops = [.num level, .current] ∧ i = .setBrightness level cfg.currentTarget) ∨
      (m = "DESELECT" ∧ ops = [] ∧ i = .select 0)) ∧
    (∀ ops, assemble cfg "DESELECT" ops = if ops = [] then some (.select 0) else none) ∧
    (∀ level, assemble cfg "SET_BRIGHTNESS" [.num level, .current] = some (.setBrightness level cfg.currentTarget))

/-! ## The step, reset and faults -/

/-- A step runs the decoded operation: where the host presents a word that decodes to `i`, the step is `exec i` on the
state from which the host's input has been taken (R92, R108). -/
def Obligations.StepRunsDecodedOperation : Prop :=
  ∀ (s : State) (w : OpWord) (rest : List HostInput) (i : Instr), s.cfg.wellFormed = true → s.faulted = false → s.pending = .word w :: rest → decode w = .ok i →
    step s = exec i { s with pending := rest }

/-- With nothing presented the block waits (R103, "after reset the block waits for the host's first word"). That the host's inputs are a
queue is the model's choice (notes/assumptions/4.md). -/
def Obligations.StepWaitsForHost : Prop :=
  ∀ s : State, s.cfg.wellFormed = true → s.pending = [] → step s = .next s

/-- Reset (R103, R104): from any state, faulted or in an open window, the reset column of R29 and an empty trace, in the same
configuration. That no byte of the buffer then reads is the model's form of "unspecified" (notes/assumptions/5.md). -/
def Obligations.ResetInputRestoresResetColumn : Prop :=
  ∀ (s : State) (rest : List HostInput), s.cfg.wellFormed = true → s.pending = .reset :: rest →
    ∃ t, step s = .next t ∧ (∀ p, t.pins.get p = ⟨.unconfigured, .unknown⟩) ∧ t.activeTarget = 0 ∧ t.activeChannel = 0 ∧
      t.status = 0 ∧ t.result = 0 ∧ t.trace = [] ∧ (∀ c i, t.byteAt c i = none) ∧ t.cfg = s.cfg ∧ t.pending = rest

/-- The state after reset (R29): the values of its reset column. That no byte of the buffer reads is the model's form of
"unspecified" (notes/assumptions/5.md). -/
def Obligations.StateAfterReset : Prop :=
  (∀ p, State.reset.pins.get p = ⟨.unconfigured, .unknown⟩) ∧ State.reset.activeTarget = 0 ∧
  State.reset.activeChannel = 0 ∧ State.reset.status = 0 ∧ State.reset.initDone = false ∧ State.reset.faulted = false ∧
  State.reset.causeCode = 0 ∧ State.reset.result = 0 ∧ State.reset.trace = [] ∧ ∀ c i, State.reset.byteAt c i = none

/-- R9: a configuration outside the bounds is refused, whatever the host presents and whatever the operation. -/
def Obligations.IllFormedConfigurationRefused : Prop :=
  ∀ s : State, ¬ (1 ≤ s.cfg.numChips ∧ s.cfg.numChips ≤ 4 ∧ s.cfg.commonSize = 8 ∧ s.cfg.outputSize % 8 = 0 ∧
      8 ≤ s.cfg.outputSize ∧ s.cfg.outputSize ≤ 64 ∧ 1 ≤ s.cfg.channelCount ∧ 2 * s.cfg.channelCount * s.cfg.len ≤ 128) →
    step s = .refused .illFormedConfig ∧ ∀ i, exec i s = .refused .illFormedConfig

/-- R93: raising a fault sets `FAULT` and `CAUSE` and nothing else, and a fault is precise: where an operation of a block that
has not faulted ends faulted, raising the fault is all it did. The codes are those of R91. -/
def Obligations.FaultEntryIsPrecise : Prop :=
  (∀ (s : State) (c : Cause), s.raiseFault c = { s with status := (s.raiseFault c).status } ∧ (s.raiseFault c).faulted = true ∧
    (s.raiseFault c).causeCode = (match c with | .illegalOp => 1 | .notInitialized => 2 | .badBitCount => 3 | .reinit => 4) ∧
    (s.raiseFault c).initDone = s.initDone ∧ (s.raiseFault c).statusReserved = s.statusReserved) ∧
  (∀ (s t : State) (w : OpWord), s.faulted = false → executeWord w s = .next t → t.faulted = true → ∃ c, t = s.raiseFault c)

/-- R92: the checks in their order, one cause for a word. -/
def Obligations.CheckOrder : Prop :=
  ∀ (s : State) (w : OpWord), s.cfg.wellFormed = true →
    (s.faulted = true → executeWord w s = .next s) ∧
    (s.faulted = false → IllegalWord w → executeWord w s = .next (s.raiseFault .illegalOp)) ∧
    (s.faulted = false → ¬ IllegalWord w → fieldOp w = 1 → s.initDone = true →
      executeWord w s = .next (s.raiseFault .reinit)) ∧
    (s.faulted = false → ¬ IllegalWord w → fieldOp w ≠ 1 → s.initDone = false →
      executeWord w s = .next (s.raiseFault .notInitialized)) ∧
    (s.faulted = false → ¬ IllegalWord w → fieldOp w = 3 → s.initDone = true → 8 < (fieldB w).toNat →
      executeWord w s = .next (s.raiseFault .badBitCount)) ∧
    (s.faulted = false → ¬ IllegalWord w → (fieldOp w = 1 ↔ s.initDone = false) →
      (fieldOp w = 3 → (fieldB w).toNat ≤ 8) → ∃ i, decode w = .ok i ∧ executeWord w s = exec i s ∧
        ∀ t, exec i s = .next t → t.faulted = false)

/-- R94: a halted block ignores every word, keeping `CAUSE`, and reset ends the halt. That ignoring a word is a next state of
the model is DEDUCED (notes/assumptions/7.md), and that a step takes the word from the queue of the host's inputs is the
model's choice (notes/assumptions/4.md). -/
def Obligations.HaltedBlockIgnoresWords : Prop :=
  ∀ s : State, s.cfg.wellFormed = true → s.faulted = true →
    (∀ w, executeWord w s = .next s) ∧ (∀ i, exec i s = .next s) ∧
    (∀ w rest, s.pending = .word w :: rest → step s = .next { s with pending := rest }) ∧
    (∀ rest, s.pending = .reset :: rest → ∃ t, step s = .next t ∧ t.faulted = false ∧ t.causeCode = 0)

/-- Reset is the only way to clear `FAULT` (R94, R103) and the only way to clear `INIT_DONE`, without which INIT does not run
again (R82, R103). That a reset is the first of a queue of inputs is the model's choice (notes/assumptions/4.md). -/
def Obligations.StatusBitsClearedOnlyByReset : Prop :=
  ∀ (s t : State), step s = .next t →
    (s.faulted = true → t.faulted = false → ∃ rest, s.pending = .reset :: rest) ∧
    (s.initDone = true → t.initDone = false → ∃ rest, s.pending = .reset :: rest) ∧
    (s.faulted = true → t.faulted = true → t.causeCode = s.causeCode)

/-! ## The pixel address translator and the frame buffer -/

/-- R57: `translatePixel` is a bijection from the valid coordinates onto the pairs `(offset, bitpos)` with `offset < LEN` and
`bitpos < 8`, with the stated inverse, so it never leaves the channel. -/
def Obligations.TranslationIsBijection : Prop :=
  ∀ cfg : Config, cfg.wellFormed = true →
    (∀ (x y : Byte) (p : PixelAddr), translatePixel cfg x y = some p → p.offset < cfg.len ∧ p.bitpos < 8 ∧
      x.toNat = 8 * (p.offset / 8) + (7 - p.bitpos) ∧ y.toNat = p.offset % 8 ∧ p.mask = 1#8 <<< p.bitpos) ∧
    (∀ x y : Byte, (∃ p, translatePixel cfg x y = some p) ↔ (x.toNat < cfg.outputSize ∧ y.toNat < 8)) ∧
    (∀ offset bitpos, offset < cfg.len → bitpos < 8 → ∃ (x y : Byte) (p : PixelAddr), translatePixel cfg x y = some p ∧ p.offset = offset ∧
      p.bitpos = bitpos)

/-- R58, SET_PIXEL: encoding, effect and frame, exceptions. -/
def Obligations.SetPixel : Prop :=
  (∀ x y : Byte, WordIs (.setPixel x y) (0x50000000 + x.toNat * 0x10000 + y.toNat * 0x100)) ∧
  (∀ x y, PlotsPixel (.setPixel x y) x y fun mask b => b ||| mask) ∧
  (∀ x y, FaultsBeforeInit (.setPixel x y)) ∧ FaultsOnStrayBits 0x5 0x0F0000FF

/-- R59, CLEAR_PIXEL: encoding, effect and frame, exceptions. -/
def Obligations.ClearPixel : Prop :=
  (∀ x y : Byte, WordIs (.clearPixel x y) (0x60000000 + x.toNat * 0x10000 + y.toNat * 0x100)) ∧
  (∀ x y, PlotsPixel (.clearPixel x y) x y fun mask b => b &&& ~~~mask) ∧
  (∀ x y, FaultsBeforeInit (.clearPixel x y)) ∧ FaultsOnStrayBits 0x6 0x0F0000FF

/-- R60, WRITE_PIXEL: encoding, effect and frame (any nonzero value is "on"), exceptions. -/
def Obligations.WritePixel : Prop :=
  (∀ x y v : Byte, WordIs (.writePixel x y v) (0x70000000 + x.toNat * 0x10000 + y.toNat * 0x100 + v.toNat)) ∧
  (∀ x y v, PlotsPixel (.writePixel x y v) x y fun mask b => if v ≠ 0 then b ||| mask else b &&& ~~~mask) ∧
  (∀ x y v, FaultsBeforeInit (.writePixel x y v)) ∧ FaultsOnStrayBits 0x7 0x0F000000

/-- R61, GET_PIXEL: RESULT becomes the addressed bit, 0 where the coordinate is out of range; nothing else changes. -/
def Obligations.GetPixel : Prop :=
  (∀ x y : Byte, WordIs (.getPixel x y) (0xF0000000 + x.toNat * 0x10000 + y.toNat * 0x100)) ∧
  (∀ (s : State) (x y : Byte), s.Ready →
    (∀ p, translatePixel s.cfg x y = some p → ∃ b, s.byteAt s.activeChannel.toNat p.offset = some b ∧
      exec (.getPixel x y) s = .next { s with result := if b.getLsbD p.bitpos then 1 else 0 }) ∧
    (translatePixel s.cfg x y = none → exec (.getPixel x y) s = .next { s with result := 0 })) ∧
  (∀ x y, FaultsBeforeInit (.getPixel x y)) ∧ FaultsOnStrayBits 0xF 0x0F0000FF

/-- R62, SET_COLUMN: pixel `(A, y)` becomes bit `y` of `B`, that is bit `7 - (A mod 8)` of byte `8 * (A div 8) + y`; no other
bit of those eight bytes and no other byte changes; an out-of-range column is a silent no-op. -/
def Obligations.SetColumn : Prop :=
  (∀ a b : Byte, WordIs (.setColumn a b) (0x80000000 + a.toNat * 0x10000 + b.toNat * 0x100)) ∧
  (∀ (s : State) (a v : Byte), s.Ready →
    (a.toNat < s.cfg.outputSize → ∃ t, exec (.setColumn a v) s = .next t ∧
      (∀ y < 8, ∃ b, s.byteAt s.activeChannel.toNat (8 * (a.toNat / 8) + y) = some b ∧
        t.byteAt s.activeChannel.toNat (8 * (a.toNat / 8) + y) =
          some (if v.getLsbD y then b ||| 1#8 <<< (7 - a.toNat % 8) else b &&& ~~~(1#8 <<< (7 - a.toNat % 8)))) ∧
      KeptOutside s t (fun k => ∃ y < 8, k = fbAddr s.cfg s.activeChannel.toNat (8 * (a.toNat / 8) + y)) ∧
      OnlyBuffer s t) ∧
    (s.cfg.outputSize ≤ a.toNat → exec (.setColumn a v) s = .next s)) ∧
  (∀ a v, FaultsBeforeInit (.setColumn a v)) ∧ FaultsOnStrayBits 0x8 0x0F0000FF

/-- R63, FILL: every byte of the active channel becomes `0xFF`, no other channel changes. -/
def Obligations.FillSetsActiveChannel : Prop :=
  WordIs .fill 0x90000000 ∧
  (∀ s : State, s.Ready → ∃ t, exec .fill s = .next t ∧ (∀ i < s.cfg.len, t.byteAt s.activeChannel.toNat i = some 0xFF) ∧
    KeptOutside s t (fun a => ∃ i < s.cfg.len, a = fbAddr s.cfg s.activeChannel.toNat i) ∧
    (∀ c i, c ≠ s.activeChannel.toNat → t.byteAt c i = s.byteAt c i) ∧ OnlyBuffer s t) ∧
  FaultsBeforeInit .fill ∧ FaultsOnStrayBits 0x9 0x0FFFFFFF

/-- R64, CLEAR: every byte of every channel becomes 0. -/
def Obligations.ClearZeroesEveryChannel : Prop :=
  WordIs .clear 0xA0000000 ∧
  (∀ s : State, s.Ready → ∃ t, exec .clear s = .next t ∧
    (∀ c i, c < s.cfg.channelCount → i < s.cfg.len → t.byteAt c i = some 0) ∧
    KeptOutside s t (fun a => ∃ c i, c < s.cfg.channelCount ∧ i < s.cfg.len ∧ a = fbAddr s.cfg c i) ∧ OnlyBuffer s t) ∧
  FaultsBeforeInit .clear ∧ FaultsOnStrayBits 0xA 0x0FFFFFFF

/-- R65, SELECT_CHANNEL: a channel that exists is stored, any other is a silent no-op. -/
def Obligations.SelectChannel : Prop :=
  (∀ c : Byte, WordIs (.selectChannel c) (0xE0000000 + c.toNat * 0x10000)) ∧
  (∀ (s : State) (c : Byte), s.Running →
    (c.toNat < s.cfg.channelCount → exec (.selectChannel c) s = .next { s with activeChannel := c }) ∧
    (s.cfg.channelCount ≤ c.toNat → exec (.selectChannel c) s = .next s)) ∧
  (∀ c, FaultsBeforeInit (.selectChannel c)) ∧ FaultsOnStrayBits 0xE 0x0F00FFFF

/-- R66: no frame-buffer operation appends a wire event or changes a pin. -/
def Obligations.BufferOperationsDriveNoPin : Prop :=
  ∀ (s t : State) (i : Instr), isBufferOperation i = true → exec i s = .next t → t.pins = s.pins ∧ t.trace = s.trace

/-- X1 (R58 to R61): the last write to a coordinate is what GET_PIXEL then reads. -/
def Obligations.PixelReadsBackLastWrite : Prop :=
  ∀ (s : State) (x y v : Byte), s.Ready → x.toNat < s.cfg.outputSize → y.toNat < 8 →
    ∃ t u, exec (.writePixel x y v) s = .next t ∧ exec (.getPixel x y) t = .next u ∧
      u.result = (if v ≠ 0 then 1 else 0)

/-- R57, R60, R61: writing one pixel changes no other pixel of the channel. -/
def Obligations.PixelsAreIndependent : Prop :=
  ∀ (s : State) (x y v x' y' : Byte), s.Ready → x.toNat < s.cfg.outputSize → y.toNat < 8 → (x, y) ≠ (x', y') →
    ∃ t u u', exec (.writePixel x y v) s = .next t ∧ exec (.getPixel x' y') s = .next u ∧
      exec (.getPixel x' y') t = .next u' ∧ u'.result = u.result

/-- R34: repeating a frame-buffer operation is idempotent. -/
def Obligations.BufferOperationsAreIdempotent : Prop :=
  ∀ (s : State) (i : Instr), s.Ready → isBufferOperation i = true → ∃ t, exec i s = .next t ∧ exec i t = .next t

/-! ## The wire -/

/-- R68, SELECT (with R67): exactly the configured lines are written, in ascending order; each is asserted (low) where its
mask bit is set and deasserted otherwise; bits that name no line have no effect. -/
def Obligations.SelectDrivesLines : Prop :=
  (∀ m : Byte, WordIs (.select m) (0x20000000 + m.toNat * 0x10000)) ∧
  (∀ (s : State) (m : Byte), s.Running → ∃ t, exec (.select m) s = .next t ∧ t.trace = s.trace ++ lineWrites s.cfg m ∧
    (∀ i : Fin 4, i.val < s.cfg.numChips → t.pins.get (.csN i) =
      ⟨(s.pins.get (.csN i)).mode, if m.getLsbD i.val then .low else .high⟩) ∧
    (∀ p, (∀ i : Fin 4, i.val < s.cfg.numChips → p ≠ .csN i) → t.pins.get p = s.pins.get p) ∧ OnlyWire s t) ∧
  (∀ m, FaultsBeforeInit (.select m)) ∧ FaultsOnStrayBits 0x2 0x0F00FFFF

/-- R72, WRITE_BITS (with R71): the low `count` bits go out MSB-first, four events each; DATA ends at bit 0 and WR low; a count
above 8 raises `BAD_BIT_COUNT` before any event. -/
def Obligations.WriteBitsShiftsOut : Prop :=
  (∀ v n : Byte, WordIs (.writeBits v n) (0x30000000 + v.toNat * 0x10000 + n.toNat * 0x100)) ∧
  (∀ (s : State) (v n : Byte), s.Running →
    (n.toNat ≤ 8 → ∃ t, exec (.writeBits v n) s = .next t ∧
      t.trace = s.trace ++ sendBits s.cfg (bitsOf v n.toNat) ∧
      (0 < n.toNat → t.pins.get .data = ⟨(s.pins.get .data).mode, if v.getLsbD 0 then .high else .low⟩ ∧
        t.pins.get .wr = ⟨(s.pins.get .wr).mode, .low⟩) ∧
      (n.toNat = 0 → t.pins = s.pins) ∧
      (∀ p, p ≠ .data → p ≠ .wr → t.pins.get p = s.pins.get p) ∧ OnlyWire s t) ∧
    (8 < n.toNat → exec (.writeBits v n) s = .next (s.raiseFault .badBitCount))) ∧
  (∀ v n, FaultsBeforeInit (.writeBits v n)) ∧ FaultsOnStrayBits 0x3 0x0F0000FF

/-- R74, WRITE_SINGLE_BIT (with R73): one bit at `PAD_LEVEL`. -/
def Obligations.WriteSingleBitSendsPadding : Prop :=
  WordIs .writeSingleBit 0x40000000 ∧
  (∀ s : State, s.Running → ∃ t, exec .writeSingleBit s = .next t ∧
    t.trace = s.trace ++ [.set .data s.cfg.padLevel, .wait s.cfg.tProp, .set .wr true, .set .wr false] ∧
    t.pins.get .data = ⟨(s.pins.get .data).mode, if s.cfg.padLevel then .high else .low⟩ ∧
    t.pins.get .wr = ⟨(s.pins.get .wr).mode, .low⟩ ∧
    (∀ p, p ≠ .data → p ≠ .wr → t.pins.get p = s.pins.get p) ∧ OnlyWire s t ∧
    (s.cfg.padLevel = false → exec (.writeBits 0 1) s = .next t)) ∧
  FaultsBeforeInit .writeSingleBit ∧ FaultsOnStrayBits 0x4 0x0FFFFFFF

/-- R78, RENDER (with R77): select exactly the target, ID, address zero, every byte from bit 7 to bit 0 in channel-then-index
order, deselect all; Idle at the end; an invalid target is a silent no-op. -/
def Obligations.RenderSendsBuffer : Prop :=
  WordIs .render 0xB0000000 ∧
  (∀ s : State, s.Ready →
    (s.activeTarget.toNat < s.cfg.numChips → ∃ t bytes, exec .render s = .next t ∧ BufferIs s bytes ∧
      t.trace = s.trace ++ (lineWrites s.cfg (BitVec.ofNat 8 (2 ^ s.activeTarget.toNat)) ++
        sendBits s.cfg (ramFrameBits s.cfg bytes) ++ lineWrites s.cfg 0) ∧
      t.pins.idle s.cfg = true ∧ OnlyWire s t) ∧
    (s.cfg.numChips ≤ s.activeTarget.toNat → exec .render s = .next s)) ∧
  FaultsBeforeInit .render ∧ FaultsOnStrayBits 0xB 0x0FFFFFFF

/-- R80: the size of one render in bits and events, with the spec's example. -/
def Obligations.RenderSize : Prop :=
  (∀ (s : State) (k : Nat) (t : State), s.cfg.wellFormed = true → renderTo k s = .next t →
    ∃ evs, t.trace = s.trace ++ evs ∧
      (dataLevels evs).length = 10 + 8 * s.cfg.channelCount * s.cfg.len ∧
      evs.length = 2 * s.cfg.numChips + 4 * (10 + 8 * s.cfg.channelCount * s.cfg.len)) ∧
  (∀ (s : State) (k : Nat) (t : State), s.cfg.wellFormed = true → s.cfg.outputSize = 32 → s.cfg.channelCount = 1 → s.cfg.numChips = 1 →
    renderTo k s = .next t →
      ∃ evs, t.trace = s.trace ++ evs ∧ (dataLevels evs).length = 266 ∧ evs.length = 1066)

/-- R36, R37, R48: where a pixel is on the wire. Bit `10 + 8 * (c * LEN + offset) + (x mod 8)` of a render carries pixel `(x, y)`
of channel `c`, so the pixels of a group go out in ascending column order. -/
def Obligations.RenderSendsPixelsInColumnOrder : Prop :=
  ∀ (s : State) (c : Nat) (x y : Byte) (p : PixelAddr), s.Ready → s.activeTarget.toNat < s.cfg.numChips → c < s.cfg.channelCount → translatePixel s.cfg x y = some p →
    ∃ t evs b, exec .render s = .next t ∧ t.trace = s.trace ++ evs ∧ s.byteAt c p.offset = some b ∧
      (dataLevels evs)[10 + 8 * (c * s.cfg.len + p.offset) + x.toNat % 8]? = some (b.getLsbD p.bitpos)

/-- R70: the bits that an operation sends reach exactly the chips that are selected while it sends them. A render's are received
by the target and by no other chip; a brightness command's by every chip of the mask, together, and by no other (R89), the
mask being the operand or, for the sentinel, the current target (R88); INIT's five commands by every chip (R84), and then one
all-zero render by each; the bits of the two primitives by the chips of the window that the host has open. That a rise of WR
latches is general knowledge (notes/assumptions/12.md). -/
def Obligations.TransactionsReachSelectedChipsOnly : Prop :=
  (∀ s : State, s.Ready → s.Inv → s.activeTarget.toNat < s.cfg.numChips → ∃ t evs bytes, exec .render s = .next t ∧
    t.trace = s.trace ++ evs ∧ BufferIs s bytes ∧ ∀ i : Fin 4, i.val < s.cfg.numChips →
      receivedLevels i s.pins evs =
        if i.val = s.activeTarget.toNat then (ramFrameBits s.cfg bytes).map Level.ofBool else []) ∧
  (∀ (s : State) (level b mask : Byte), s.Running → s.Inv →
    ((b ≠ s.cfg.currentTarget ∧ mask = b) ∨
      (b = s.cfg.currentTarget ∧ s.activeTarget.toNat < s.cfg.numChips ∧
        mask = BitVec.ofNat 8 (2 ^ s.activeTarget.toNat))) →
    ∃ t evs code, exec (.setBrightness level b) s = .next t ∧ t.trace = s.trace ++ evs ∧
      ∀ i : Fin 4, i.val < s.cfg.numChips →
        receivedLevels i s.pins evs =
          if mask.getLsbD i.val then (commandFrameBits s.cfg [code]).map Level.ofBool else []) ∧
  (∀ s : State, s.cfg.wellFormed = true → s.faulted = false → s.initDone = false → ∃ t evs, exec .init s = .next t ∧
    t.trace = s.trace ++ evs ∧ ∀ i : Fin 4, i.val < s.cfg.numChips →
      receivedLevels i s.pins evs =
        (commandFrameBits s.cfg (initCodes s.cfg) ++
          ramFrameBits s.cfg (List.replicate (s.cfg.channelCount * s.cfg.len) 0)).map Level.ofBool) ∧
  (∀ (s : State) (v n : Byte), s.Running → s.Inv → n.toNat ≤ 8 → ∃ t evs, exec (.writeBits v n) s = .next t ∧
    t.trace = s.trace ++ evs ∧ ∀ i : Fin 4, i.val < s.cfg.numChips →
      receivedLevels i s.pins evs =
        if (s.pins.get (.csN i)).level = .low then (bitsOf v n.toNat).map Level.ofBool else []) ∧
  (∀ s : State, s.Running → s.Inv → ∃ t evs, exec .writeSingleBit s = .next t ∧
    t.trace = s.trace ++ evs ∧ ∀ i : Fin 4, i.val < s.cfg.numChips →
      receivedLevels i s.pins evs =
        if (s.pins.get (.csN i)).level = .low then [Level.ofBool s.cfg.padLevel] else [])

/-- R79, SELECT_TARGET: stored without validation; an invalid target makes a later RENDER and a later SET_BRIGHTNESS with the
sentinel no-ops. -/
def Obligations.SelectTarget : Prop :=
  (∀ k : Byte, WordIs (.selectTarget k) (0xD0000000 + k.toNat * 0x10000)) ∧
  (∀ (s : State) (k : Byte), s.Running → exec (.selectTarget k) s = .next { s with activeTarget := k } ∧
    (s.cfg.numChips ≤ k.toNat → exec .render { s with activeTarget := k } = .next { s with activeTarget := k } ∧
      ∀ level, exec (.setBrightness level s.cfg.currentTarget) { s with activeTarget := k } =
        .next { s with activeTarget := k })) ∧
  (∀ k, FaultsBeforeInit (.selectTarget k)) ∧ FaultsOnStrayBits 0xD 0x0F00FFFF

/-- R82, INIT (with R83 and R84): the four phases' events, the registers, the zeroed buffer and the pins it leaves; a second INIT
raises `REINIT`. -/
def Obligations.InitBringsUp : Prop :=
  WordIs .init 0x10000000 ∧
  (∀ s : State, s.cfg.wellFormed = true → s.faulted = false → s.initDone = false → ∃ t, exec .init s = .next t ∧
    t.trace = s.trace ++ initTrace s.cfg ∧
    t.initDone = true ∧ t.faulted = false ∧ t.causeCode = s.causeCode ∧ t.statusReserved = s.statusReserved ∧
    t.activeChannel = 0 ∧ t.activeTarget = 0 ∧
    (∀ c i, c < s.cfg.channelCount → i < s.cfg.len → t.byteAt c i = some 0) ∧
    KeptOutside s t (· < s.cfg.channelCount * s.cfg.len) ∧
    (∀ i : Fin 4, i.val < s.cfg.numChips → t.pins.get (.csN i) = ⟨.output, .high⟩) ∧
    t.pins.get .wr = ⟨.output, .low⟩ ∧ t.pins.get .data = ⟨.output, .low⟩ ∧
    (∀ p, (p = .clk ∨ hasPin s.cfg p = false) → t.pins.get p = s.pins.get p) ∧
    t = { s with pins := t.pins, trace := t.trace, fb := t.fb, status := t.status, activeChannel := 0, activeTarget := 0 }) ∧
  (∀ s : State, s.cfg.wellFormed = true → s.faulted = false → s.initDone = true →
    exec .init s = .next (s.raiseFault .reinit)) ∧
  FaultsOnStrayBits 0x1 0x0FFFFFFF

/-- R85: the size of INIT, with the spec's two examples. -/
def Obligations.InitSize : Prop :=
  ∀ (s t : State), s.cfg.wellFormed = true → s.faulted = false → s.initDone = false → exec .init s = .next t →
    ∃ evs, t.trace = s.trace ++ evs ∧
      evs.length = (s.cfg.numChips + 2) + s.cfg.numChips + 1 + s.cfg.numChips + 4 * 48 + s.cfg.numChips +
        s.cfg.numChips * (2 * s.cfg.numChips + 40 + 32 * s.cfg.channelCount * s.cfg.len) ∧
      evs.length = 4 * s.cfg.numChips + 195 +
        s.cfg.numChips * (2 * s.cfg.numChips + 40 + 32 * s.cfg.channelCount * s.cfg.len) ∧
      (s.cfg.numChips = 1 → s.cfg.channelCount = 1 → s.cfg.len = 32 → evs.length = 1265) ∧
      (s.cfg.numChips = 2 → s.cfg.channelCount = 1 → s.cfg.len = 32 → evs.length = 2339)

/-- R86 to R89, SET_BRIGHTNESS: one transaction of `2 * NUM_CHIPS + 48` events with the PWM command of the clamped level, on the
operand's mask, or on the current target where the mask is the sentinel; the sentinel with an invalid target is a silent
no-op. -/
def Obligations.SetBrightnessSendsPwm : Prop :=
  (∀ a b : Byte, WordIs (.setBrightness a b) (0xC0000000 + a.toNat * 0x10000 + b.toNat * 0x100)) ∧
  (∀ (s : State) (a b mask : Byte), s.Running →
    ((b ≠ s.cfg.currentTarget ∧ mask = b) ∨
      (b = s.cfg.currentTarget ∧ s.activeTarget.toNat < s.cfg.numChips ∧
        mask = BitVec.ofNat 8 (2 ^ s.activeTarget.toNat))) →
    ∃ t level evs, exec (.setBrightness a b) s = .next t ∧
      (a.toNat = 0 → level = 1) ∧ (16 < a.toNat → level = 16) ∧ (1 ≤ a.toNat → a.toNat ≤ 16 → level = a.toNat) ∧
      t.trace = s.trace ++ evs ∧
      evs = lineWrites s.cfg mask ++
        sendBits s.cfg (commandFrameBits s.cfg [s.cfg.cmdPwmBase ||| BitVec.ofNat 8 (level - 1)]) ++ lineWrites s.cfg 0 ∧
      evs.length = 2 * s.cfg.numChips + 48 ∧ t.pins.idle s.cfg = true ∧ OnlyWire s t) ∧
  (∀ (s : State) (a : Byte), s.Running → s.cfg.numChips ≤ s.activeTarget.toNat → exec (.setBrightness a s.cfg.currentTarget) s = .next s) ∧
  (∀ a b, FaultsBeforeInit (.setBrightness a b)) ∧ FaultsOnStrayBits 0xC 0x0F0000FF

/-- R113: the events each operation appends and how many of them are waits; a faulting word appends none; the least
wall-clock time is the number of waits times `T_PROP`. -/
def Obligations.EventCounts : Prop :=
  ∀ (s t : State) (i : Instr), s.faulted = false → exec i s = .next t →
    (t.faulted = true → t.trace = s.trace) ∧
    (t.faulted = false → ∃ evs, t.trace = s.trace ++ evs ∧ evs.length = (eventCount s i).1 ∧
      waitCount evs = (eventCount s i).2 ∧ minTime evs = (eventCount s i).2 * s.cfg.tProp)

/-! ## Invariants and whole-machine rules -/

/-- The invariant holds at reset, in every well-formed configuration and in the one the model carries, which is the model's
choice (notes/assumptions/2.md). That the buffer lists nothing before INIT is the model's form of "unspecified"
(notes/assumptions/5.md), and that State has CLK and four lines in every configuration is the model's (18.md). -/
def Obligations.InvariantAtReset : Prop :=
  State.reset.Inv ∧ ∀ cfg : Config, cfg.wellFormed = true → (State.resetWith cfg).Inv

/-- Every step keeps the invariant (R18, R21 to R25, R27, R29). Of its clauses, that the buffer lists nothing before INIT and no
address but its bytes after it is the model's form of R25 and R29, which leave the buffer unspecified before INIT
(notes/assumptions/5.md); and that lines and a CLK which the configuration does not have are in State, untouched, is the
model's reading of R18 (notes/assumptions/18.md). -/
def Obligations.InvariantKeptByStep : Prop := ∀ (s t : State), s.Inv → step s = .next t → t.Inv

/-- From a state of the invariant the machine never stops: whatever the host presents, the step answers a next state. The two
model faults and the refusal are out of reach of every run from reset. -/
def Obligations.InvariantStatesNeverStop : Prop := ∀ s : State, s.Inv → ∃ t, step s = .next t

/-- R27: INIT leaves WR low, and every later operation leaves it low if it found it low. -/
def Obligations.StrobeLowAfterEveryOperation : Prop :=
  ∀ (s t : State) (i : Instr), (s.initDone = true → (s.pins.get .wr).level = .low) → exec i s = .next t → t.initDone = true →
    (t.pins.get .wr).level = .low

/-- R26, R107: INIT, RENDER and SET_BRIGHTNESS end Idle whatever window was open when they emit, and every operation but the three
primitives leaves an Idle block Idle. -/
def Obligations.CompositesEndIdle : Prop :=
  ∀ (s t : State) (i : Instr), s.Inv → exec i s = .next t →
    (t.trace ≠ s.trace → (i = .init ∨ i = .render ∨ ∃ l m, i = .setBrightness l m) → t.pins.idle t.cfg = true) ∧
    ((∀ m v c, i ≠ .select m ∧ i ≠ .writeBits v c ∧ i ≠ .writeSingleBit) → s.pins.idle s.cfg = true →
      t.pins.idle t.cfg = true)

/-- R76: every step keeps the timing contract of the encoder over the whole trace: each rise of WR follows the driving of DATA
and a wait of `T_PROP`. -/
def Obligations.StrobeTimingKept : Prop :=
  ∀ (s t : State), StrobesTimed s.cfg.tProp s.trace → step s = .next t → StrobesTimed t.cfg.tProp t.trace

/-- R75, R111: every step keeps that each rise of WR in the trace finds WR low (the encoder's precondition) and every configured
pin at a known level, so no strobe falls into INIT's configuration window. -/
def Obligations.StrobesRiseKept : Prop :=
  ∀ (s t : State), s.Inv → StrobesRise s.cfg s.trace → step s = .next t → StrobesRise t.cfg t.trace

/-- R20, R21, R23, R25: which operations write which state. `ACTIVE_TARGET` is written by SELECT_TARGET and INIT, `ACTIVE_CHANNEL` by
SELECT_CHANNEL and INIT, RESULT by GET_PIXEL, the frame buffer by the six buffer writers and INIT, and the configuration
by none (R8). That none touches the host's inputs is about the model's own queue (notes/assumptions/4.md). -/
def Obligations.OnlyTheseOperationsWrite : Prop :=
  ∀ (s t : State) (i : Instr), exec i s = .next t →
    (t.activeTarget ≠ s.activeTarget → (i = .init ∧ t.activeTarget = 0) ∨ i = .selectTarget t.activeTarget) ∧
    (t.activeChannel ≠ s.activeChannel → (i = .init ∧ t.activeChannel = 0) ∨
      (i = .selectChannel t.activeChannel ∧ t.activeChannel.toNat < s.cfg.channelCount)) ∧
    (t.result ≠ s.result → (∃ x y, i = .getPixel x y) ∧ t.result.toNat < 2) ∧
    (t.fb ≠ s.fb → i = .init ∨ i = .fill ∨ i = .clear ∨ (∃ x y, i = .setPixel x y) ∨ (∃ x y, i = .clearPixel x y) ∨
      (∃ x y v, i = .writePixel x y v) ∨ ∃ x v, i = .setColumn x v) ∧
    t.pending = s.pending ∧ t.cfg = s.cfg

/-- R24: every operation appends to the trace and none removes from it, and the pins move exactly as the appended events say
(R18). -/
def Obligations.TraceOnlyGrows : Prop :=
  ∀ (s t : State) (w : OpWord), executeWord w s = .next t → ∃ evs, t.trace = s.trace ++ evs ∧ t.pins = evs.foldl Pins.apply s.pins

/-- R18, R67, 92 D19: no operation configures or drives CLK or a line of a chip that is not configured. -/
def Obligations.EventsNameConfiguredPins : Prop :=
  ∀ (s t : State) (i : Instr), exec i s = .next t → ∃ evs, t.trace = s.trace ++ evs ∧
    ∀ e ∈ evs, ∀ p, (e = .cfg p ∨ ∃ l, e = .set p l) → p ≠ .clk ∧ hasPin s.cfg p = true

/-- R8: no step changes the configuration, by a word or by reset. That State carries it is the model's choice
(notes/assumptions/1.md). -/
def Obligations.ConfigurationNeverChanges : Prop := ∀ (s t : State), step s = .next t → t.cfg = s.cfg
end

