-- ==== Sys2Proof/Laws/Config.lean ====
section
/-! SUPPORT. What a well-formed configuration gives: its bounds, the length of a channel, the translator's range and the
configured lines. -/

namespace Sys2Proof.Machine

variable {cfg : Config}

/-- The bounds of R9, as propositions. -/
theorem wellFormed_bounds (h : cfg.wellFormed = true) :
    1 ≤ cfg.numChips ∧ cfg.numChips ≤ 4 ∧ cfg.commonSize = 8 ∧ cfg.outputSize % 8 = 0 ∧ 8 ≤ cfg.outputSize
      ∧ cfg.outputSize ≤ 64 ∧ 1 ≤ cfg.channelCount ∧ 2 * cfg.channelCount * cfg.len ≤ 128 := by
  simp only [Config.wellFormed, Config.geometryOk, Bool.and_eq_true, decide_eq_true_eq, beq_iff_eq] at h
  tauto

/-- Under R9 a channel has as many bytes as the matrix has columns (R10). -/
theorem len_eq_outputSize (h : cfg.wellFormed = true) : cfg.len = cfg.outputSize := by
  obtain ⟨-, -, h3, -⟩ := wellFormed_bounds h
  simp [Config.len, h3]

/-- An address of a channel that exists is inside the buffer. -/
theorem fbAddr_lt {c i : Nat} (hc : c < cfg.channelCount) (hi : i < cfg.len) : fbAddr cfg c i < cfg.bufferBytes := by
  simp only [fbAddr, Config.bufferBytes]
  calc c * cfg.len + i < c * cfg.len + cfg.len := by omega
    _ = (c + 1) * cfg.len := by ring
    _ ≤ cfg.channelCount * cfg.len := Nat.mul_le_mul_right _ hc

/-- Bytes of the buffer have addresses of their own. -/
theorem fbAddr_inj {c c' i i' : Nat} (hi : i < cfg.len) (hi' : i' < cfg.len)
    (h : fbAddr cfg c i = fbAddr cfg c' i') : c = c' ∧ i = i' := by
  simp only [fbAddr] at h
  have hc : c = c' := by
    by_contra hne
    obtain hlt | hlt := Nat.lt_or_gt_of_ne hne
    · have : (c + 1) * cfg.len ≤ c' * cfg.len := Nat.mul_le_mul_right _ hlt
      have : (c + 1) * cfg.len = c * cfg.len + cfg.len := by ring
      omega
    · have : (c' + 1) * cfg.len ≤ c * cfg.len := Nat.mul_le_mul_right _ hlt
      have : (c' + 1) * cfg.len = c' * cfg.len + cfg.len := by ring
      omega
  subst hc
  exact ⟨rfl, by omega⟩

/-- Every address of the buffer is that of one byte. -/
theorem exists_fbAddr {a : Nat} (h : a < cfg.bufferBytes) :
    ∃ c i, c < cfg.channelCount ∧ i < cfg.len ∧ fbAddr cfg c i = a := by
  have hlen : 0 < cfg.len := by
    by_contra h0
    simp [Config.bufferBytes, show cfg.len = 0 by omega] at h
  refine ⟨a / cfg.len, a % cfg.len, ?_, Nat.mod_lt _ hlen, ?_⟩
  · exact Nat.div_lt_of_lt_mul (by simpa [Config.bufferBytes, Nat.mul_comm] using h)
  · simp only [fbAddr]
    exact Nat.div_add_mod' a cfg.len

/-- The addresses of the whole buffer in channel-then-index order are `0, 1, …` (R31). -/
theorem flatMap_fbAddr (cfg : Config) (n : Nat) :
    (List.range n).flatMap (fun c => (List.range cfg.len).map (fbAddr cfg c)) = List.range (n * cfg.len) := by
  induction n with
  | zero => simp
  | succ n ih =>
    rw [List.range_succ, List.flatMap_append, ih, Nat.succ_mul, List.range_add]
    simp [fbAddr]

/-- A valid coordinate is translated into the channel; any other is `Invalid` (R56). -/
theorem translate_valid {x y : Byte} (h : cfg.wellFormed = true) (hx : x.toNat < cfg.outputSize) (hy : y.toNat < 8) :
    translatePixel cfg x y = some ⟨y.toNat + 8 * (x.toNat / 8), 7 - x.toNat % 8, 1#8 <<< (7 - x.toNat % 8)⟩ := by
  obtain ⟨-, -, h3, -⟩ := wellFormed_bounds h
  have hno : ¬ (cfg.outputSize ≤ x.toNat ∨ cfg.commonSize ≤ y.toNat) := by omega
  simp only [translatePixel, hno, if_false]

theorem translate_invalid {x y : Byte} (h : cfg.wellFormed = true) (hxy : cfg.outputSize ≤ x.toNat ∨ 8 ≤ y.toNat) :
    translatePixel cfg x y = none := by
  obtain ⟨-, -, h3, -⟩ := wellFormed_bounds h
  have hyes : cfg.outputSize ≤ x.toNat ∨ cfg.commonSize ≤ y.toNat := by omega
  simp only [translatePixel, hyes, if_true]

/-- What the translator gives: the offset is in the channel, the mask is the bit. -/
theorem translate_some {x y : Byte} {p : PixelAddr} (h : cfg.wellFormed = true) (hp : translatePixel cfg x y = some p) :
    x.toNat < cfg.outputSize ∧ y.toNat < 8 ∧ p.offset = y.toNat + 8 * (x.toNat / 8) ∧ p.bitpos = 7 - x.toNat % 8
      ∧ p.mask = 1#8 <<< p.bitpos ∧ p.offset < cfg.len := by
  by_cases hxy : cfg.outputSize ≤ x.toNat ∨ 8 ≤ y.toNat
  · simp [translate_invalid h hxy] at hp
  · simp only [not_or, Nat.not_le] at hxy
    rw [translate_valid h hxy.1 hxy.2] at hp
    obtain rfl := Option.some.inj hp
    obtain ⟨-, -, -, h4, -⟩ := wellFormed_bounds h
    refine ⟨hxy.1, hxy.2, rfl, rfl, rfl, ?_⟩
    rw [len_eq_outputSize h]
    have := hxy.1
    have := hxy.2
    show y.toNat + 8 * (x.toNat / 8) < cfg.outputSize
    omega

/-- The configured lines are those below `NUM_CHIPS`. -/
theorem mem_csLines {i : Fin 4} : i ∈ csLines cfg ↔ i.val < cfg.numChips := by
  unfold csLines
  match h : cfg.numChips with
  | 0 => simp
  | 1 => revert i; decide
  | 2 => revert i; decide
  | 3 => revert i; decide
  | n + 4 =>
    have : List.take (n + 4) [(0 : Fin 4), 1, 2, 3] = [0, 1, 2, 3] := List.take_of_length_le (by simp)
    rw [this]
    have := i.isLt
    constructor
    · intro; omega
    · intro _
      have all : ∀ j : Fin 4, j ∈ [(0 : Fin 4), 1, 2, 3] := by decide
      exact all i

theorem csLines_length (h : cfg.wellFormed = true) : (csLines cfg).length = cfg.numChips := by
  obtain ⟨-, h2, -⟩ := wellFormed_bounds h
  simp [csLines, h2]

theorem csLines_nodup : (csLines cfg).Nodup :=
  (List.take_sublist _ _).nodup (by decide)

end Sys2Proof.Machine
end

