-- ==== Sys2Proof/Laws/State.lean ====
section
/-! SUPPORT. One lemma per field per named update of State, and the status fields after each status update. -/

namespace Sys2Proof.Machine

variable (s : State) (evs : List Event) (c : Cause) (w : OpWord)

@[simp] theorem emit_cfg : (s.emit evs).cfg = s.cfg := rfl
@[simp] theorem emit_pins : (s.emit evs).pins = s.pins.run evs := rfl
@[simp] theorem emit_activeTarget : (s.emit evs).activeTarget = s.activeTarget := rfl
@[simp] theorem emit_activeChannel : (s.emit evs).activeChannel = s.activeChannel := rfl
@[simp] theorem emit_status : (s.emit evs).status = s.status := rfl
@[simp] theorem emit_result : (s.emit evs).result = s.result := rfl
@[simp] theorem emit_fb : (s.emit evs).fb = s.fb := rfl
@[simp] theorem emit_trace : (s.emit evs).trace = s.trace ++ evs := rfl
@[simp] theorem emit_pending : (s.emit evs).pending = s.pending := rfl

@[simp] theorem raiseFault_cfg : (s.raiseFault c).cfg = s.cfg := rfl
@[simp] theorem raiseFault_pins : (s.raiseFault c).pins = s.pins := rfl
@[simp] theorem raiseFault_activeTarget : (s.raiseFault c).activeTarget = s.activeTarget := rfl
@[simp] theorem raiseFault_activeChannel : (s.raiseFault c).activeChannel = s.activeChannel := rfl
@[simp] theorem raiseFault_status : (s.raiseFault c).status = statusFault s.status c := rfl
@[simp] theorem raiseFault_result : (s.raiseFault c).result = s.result := rfl
@[simp] theorem raiseFault_fb : (s.raiseFault c).fb = s.fb := rfl
@[simp] theorem raiseFault_trace : (s.raiseFault c).trace = s.trace := rfl
@[simp] theorem raiseFault_pending : (s.raiseFault c).pending = s.pending := rfl

@[simp] theorem assertReset_cfg : s.assertReset.cfg = s.cfg := rfl
@[simp] theorem assertReset_pins : s.assertReset.pins = Pins.reset := rfl
@[simp] theorem assertReset_activeTarget : s.assertReset.activeTarget = 0 := rfl
@[simp] theorem assertReset_activeChannel : s.assertReset.activeChannel = 0 := rfl
@[simp] theorem assertReset_status : s.assertReset.status = 0 := rfl
@[simp] theorem assertReset_result : s.assertReset.result = 0 := rfl
@[simp] theorem assertReset_fb : s.assertReset.fb = [] := rfl
@[simp] theorem assertReset_trace : s.assertReset.trace = [] := rfl
@[simp] theorem assertReset_pending : s.assertReset.pending = s.pending := rfl

@[simp] theorem present_cfg : (s.present w).cfg = s.cfg := rfl
@[simp] theorem present_pins : (s.present w).pins = s.pins := rfl
@[simp] theorem present_activeTarget : (s.present w).activeTarget = s.activeTarget := rfl
@[simp] theorem present_activeChannel : (s.present w).activeChannel = s.activeChannel := rfl
@[simp] theorem present_status : (s.present w).status = s.status := rfl
@[simp] theorem present_result : (s.present w).result = s.result := rfl
@[simp] theorem present_fb : (s.present w).fb = s.fb := rfl
@[simp] theorem present_trace : (s.present w).trace = s.trace := rfl
@[simp] theorem present_pending : (s.present w).pending = .word w :: s.pending := rfl

/-! The status fields depend on STATUS alone. -/

theorem initDone_of_status {s t : State} (h : t.status = s.status) : t.initDone = s.initDone := by
  simp [State.initDone, h]
theorem faulted_of_status {s t : State} (h : t.status = s.status) : t.faulted = s.faulted := by
  simp [State.faulted, h]
theorem causeCode_of_status {s t : State} (h : t.status = s.status) : t.causeCode = s.causeCode := by
  simp [State.causeCode, h]
theorem statusReserved_of_status {s t : State} (h : t.status = s.status) : t.statusReserved = s.statusReserved := by
  simp [State.statusReserved, h]

/-- A fault leaves `INIT_DONE`, sets `FAULT`, records the cause and leaves the reserved bits. -/
@[simp] theorem raiseFault_initDone : (s.raiseFault c).initDone = s.initDone := by
  cases c <;> simp [State.initDone, statusFault, Cause.code]
@[simp] theorem raiseFault_faulted : (s.raiseFault c).faulted = true := by
  cases c <;> simp [State.faulted, statusFault, Cause.code]
@[simp] theorem raiseFault_causeCode : (s.raiseFault c).causeCode = c.code := by
  have h : ∀ b : BitVec 8, (statusFault b c).extractLsb' 2 3 = c.code := by cases c <;> decide +revert
  exact h _
@[simp] theorem raiseFault_statusReserved : (s.raiseFault c).statusReserved = s.statusReserved := by
  have h : ∀ b : BitVec 8, (statusFault b c).extractLsb' 5 3 = b.extractLsb' 5 3 := by cases c <;> decide +revert
  exact h _

/-- After reset `INIT_DONE`, `FAULT` and `CAUSE` are 0 (R103). -/
@[simp] theorem assertReset_initDone : s.assertReset.initDone = false := by simp [State.initDone]
@[simp] theorem assertReset_faulted : s.assertReset.faulted = false := by simp [State.faulted]
@[simp] theorem assertReset_causeCode : s.assertReset.causeCode = 0 := by simp [State.causeCode]
@[simp] theorem assertReset_statusReserved : s.assertReset.statusReserved = 0 := by simp [State.statusReserved]

/-- `INIT_DONE <- 1` changes no other field of STATUS. -/
theorem statusInitDone_initDone (b : Byte) : (statusInitDone b).getLsbD 0 = true := by simp [statusInitDone]
theorem statusInitDone_faulted (b : Byte) : (statusInitDone b).getLsbD 1 = b.getLsbD 1 := by simp [statusInitDone]
theorem statusInitDone_causeCode (b : Byte) : (statusInitDone b).extractLsb' 2 3 = b.extractLsb' 2 3 := by
  decide +revert
theorem statusInitDone_reserved (b : Byte) : (statusInitDone b).extractLsb' 5 3 = b.extractLsb' 5 3 := by
  decide +revert

end Sys2Proof.Machine
end

