-- ==== Sys2Proof/Laws/Control.lean ====
section
/-! SUPPORT. Sequencing, loops and the common checks of R92: what each answers, and from what an answer comes. -/

namespace Sys2Proof.Machine

variable {α β : Type}

@[simp] theorem andThen_next (x : α) (k : α → Answer β) : andThen (.next x) k = k x := rfl
@[simp] theorem andThen_fault (r : Fault) (k : α → Answer β) : andThen (.fault r) k = .fault r := rfl
@[simp] theorem andThen_refused (r : Refusal) (k : α → Answer β) : andThen (.refused r) k = .refused r := rfl

/-- A sequence answers a next state exactly through a next state of its first part. -/
theorem andThen_eq_next {a : Answer α} {k : α → Answer β} {y : β} :
    andThen a k = .next y ↔ ∃ x, a = .next x ∧ k x = .next y := by
  cases a <;> simp [andThen]

@[simp] theorem forEach_nil (body : α → State → Answer State) (s : State) : forEach body [] s = .next s := rfl
@[simp] theorem forEach_cons (body : α → State → Answer State) (x : α) (xs : List α) (s : State) :
    forEach body (x :: xs) s = andThen (body x s) (forEach body xs) := rfl

/-- What every pass of a loop keeps, the loop keeps. -/
theorem forEach_keeps {body : α → State → Answer State} {P : State → Prop}
    (step : ∀ x s t, P s → body x s = .next t → P t) {xs : List α} {s t : State} (hs : P s)
    (h : forEach body xs s = .next t) : P t := by
  induction xs generalizing s with
  | nil =>
    simp only [forEach_nil, Host.Outcome.next.injEq] at h
    exact h ▸ hs
  | cons x xs ih =>
    rw [forEach_cons, andThen_eq_next] at h
    obtain ⟨u, hu, h⟩ := h
    exact ih (step x s u hs hu) h

/-- A loop over reads that all succeed collects what they read. -/
theorem collect_eq_next {read : α → Answer β} {f : α → β} {xs : List α} (h : ∀ x ∈ xs, read x = .next (f x)) :
    collect read xs = .next (xs.map f) := by
  induction xs with
  | nil => rfl
  | cons x xs ih =>
    simp only [collect, h x (by simp), ih fun y hy => h y (by simp [hy]), andThen_next, List.map_cons]

/-- A loop over reads that answers has read once for each element. -/
theorem collect_length {read : α → Answer β} {xs : List α} {ys : List β} (h : collect read xs = .next ys) :
    ys.length = xs.length := by
  induction xs generalizing ys with
  | nil =>
    simp only [collect, Host.Outcome.next.injEq] at h
    subst h
    rfl
  | cons x xs ih =>
    simp only [collect, andThen_eq_next] at h
    obtain ⟨y, -, zs, hz, h⟩ := h
    rw [Host.Outcome.next.injEq] at h
    subst h
    simp [ih hz]

/-- What holds of every read holds of all that is collected. -/
theorem collect_all {read : α → Answer β} {P : β → Prop} (hp : ∀ x y, read x = .next y → P y) {xs : List α}
    {ys : List β} (h : collect read xs = .next ys) : ∀ y ∈ ys, P y := by
  induction xs generalizing ys with
  | nil =>
    simp only [collect, Host.Outcome.next.injEq] at h
    subst h
    simp
  | cons x xs ih =>
    simp only [collect, andThen_eq_next] at h
    obtain ⟨y, hy, zs, hz, h⟩ := h
    rw [Host.Outcome.next.injEq] at h
    subst h
    simp only [List.mem_cons]
    rintro z (rfl | hz')
    · exact hp _ _ hy
    · exact ih hz _ hz'

/-- A loop over a list in two parts is one loop after the other. -/
theorem forEach_append (body : α → State → Answer State) (xs ys : List α) (s : State) :
    forEach body (xs ++ ys) s = andThen (forEach body xs s) (forEach body ys) := by
  induction xs generalizing s with
  | nil => rfl
  | cons x xs ih =>
    simp only [List.cons_append, forEach_cons]
    cases body x s <;> simp [ih]

/-! ## The common checks -/

section checks

variable {body : State → Answer State} {s t : State}

theorem unlessHalted_illFormed (h : s.cfg.wellFormed = false) : unlessHalted body s = .refused .illFormedConfig := by
  simp [unlessHalted, h]

theorem unlessHalted_halted (hw : s.cfg.wellFormed = true) (hf : s.faulted = true) : unlessHalted body s = .next s := by
  simp [unlessHalted, hw, hf]

theorem unlessHalted_clean (hw : s.cfg.wellFormed = true) (hf : s.faulted = false) : unlessHalted body s = body s := by
  simp [unlessHalted, hw, hf]

theorem afterInit_illFormed (h : s.cfg.wellFormed = false) : afterInit body s = .refused .illFormedConfig :=
  unlessHalted_illFormed h

theorem afterInit_halted (hw : s.cfg.wellFormed = true) (hf : s.faulted = true) : afterInit body s = .next s :=
  unlessHalted_halted hw hf

theorem afterInit_tooEarly (hw : s.cfg.wellFormed = true) (hf : s.faulted = false) (hi : s.initDone = false) :
    afterInit body s = .next (s.raiseFault .notInitialized) := by
  simp [afterInit, unlessHalted_clean hw hf, hi]

theorem afterInit_running (hw : s.cfg.wellFormed = true) (hf : s.faulted = false) (hi : s.initDone = true) :
    afterInit body s = body s := by
  simp [afterInit, unlessHalted_clean hw hf, hi]

theorem onceOnly_illFormed (h : s.cfg.wellFormed = false) : onceOnly body s = .refused .illFormedConfig :=
  unlessHalted_illFormed h

theorem onceOnly_halted (hw : s.cfg.wellFormed = true) (hf : s.faulted = true) : onceOnly body s = .next s :=
  unlessHalted_halted hw hf

theorem onceOnly_again (hw : s.cfg.wellFormed = true) (hf : s.faulted = false) (hi : s.initDone = true) :
    onceOnly body s = .next (s.raiseFault .reinit) := by
  simp [onceOnly, unlessHalted_clean hw hf, hi]

theorem onceOnly_first (hw : s.cfg.wellFormed = true) (hf : s.faulted = false) (hi : s.initDone = false) :
    onceOnly body s = body s := by
  simp [onceOnly, unlessHalted_clean hw hf, hi]

/-- Where a next state of an operation other than INIT comes from. -/
theorem afterInit_next (h : afterInit body s = .next t) :
    s.cfg.wellFormed = true ∧
      ((s.faulted = true ∧ t = s)
        ∨ (s.faulted = false ∧ s.initDone = false ∧ t = s.raiseFault .notInitialized)
        ∨ (s.faulted = false ∧ s.initDone = true ∧ body s = .next t)) := by
  cases hw : s.cfg.wellFormed with
  | false => simp [afterInit_illFormed hw] at h
  | true =>
    cases hf : s.faulted with
    | true => simp_all [afterInit_halted hw hf]
    | false =>
      cases hi : s.initDone with
      | false => simp_all [afterInit_tooEarly hw hf hi]
      | true => simp_all [afterInit_running hw hf hi]

/-- Where a next state of INIT comes from. -/
theorem onceOnly_next (h : onceOnly body s = .next t) :
    s.cfg.wellFormed = true ∧
      ((s.faulted = true ∧ t = s)
        ∨ (s.faulted = false ∧ s.initDone = true ∧ t = s.raiseFault .reinit)
        ∨ (s.faulted = false ∧ s.initDone = false ∧ body s = .next t)) := by
  cases hw : s.cfg.wellFormed with
  | false => simp [onceOnly_illFormed hw] at h
  | true =>
    cases hf : s.faulted with
    | true => simp_all [onceOnly_halted hw hf]
    | false =>
      cases hi : s.initDone with
      | false => simp_all [onceOnly_first hw hf hi]
      | true => simp_all [onceOnly_again hw hf hi]

end checks

end Sys2Proof.Machine
end

