-- ==== Sys2Proof/Laws/Memory.lean ====
section
/-! SUPPORT. The laws of the frame-buffer memory: read after write, the canonical form, and the addresses that hold a
value. -/

namespace Sys2Proof.Machine

/-- A read after a write to the same address gives the value written. -/
@[simp] theorem Memory.read_write_same (a : Nat) (v : Byte) (m : Memory) :
    Memory.read a (Memory.write a v m) = some v := by
  induction m with
  | nil => simp [Memory.write, Memory.read]
  | cons cell m ih =>
    obtain ⟨k, b⟩ := cell
    simp only [Memory.write]
    split
    · simp [Memory.read]
    · split
      · simp [Memory.read]
      · rename_i h1 h2
        simp [Memory.read, ih, Ne.symm h2]

/-- A write leaves every other address alone. -/
theorem Memory.read_write_other {a a' : Nat} (h : a' ≠ a) (v : Byte) (m : Memory) :
    Memory.read a' (Memory.write a v m) = Memory.read a' m := by
  induction m with
  | nil => simp [Memory.write, Memory.read, h.symm]
  | cons cell m ih =>
    obtain ⟨k, b⟩ := cell
    simp only [Memory.write]
    split
    · simp [Memory.read, h.symm]
    · split
      · rename_i h1 h2
        subst h2
        simp [Memory.read, h.symm]
      · simp [Memory.read, ih]

theorem Memory.above_write {k a : Nat} (hk : k < a) (v : Byte) {m : Memory} (h : Memory.above k m = true) :
    Memory.above k (Memory.write a v m) = true := by
  induction m with
  | nil => simpa [Memory.write, Memory.above] using hk
  | cons cell m ih =>
    obtain ⟨k', b⟩ := cell
    simp only [Memory.above, List.all_cons, Bool.and_eq_true, decide_eq_true_eq] at h
    simp only [Memory.write]
    split
    · simp only [Memory.above, List.all_cons, Bool.and_eq_true, decide_eq_true_eq]
      exact ⟨hk, h⟩
    · split
      · simp only [Memory.above, List.all_cons, Bool.and_eq_true, decide_eq_true_eq]
        exact ⟨hk, h.2⟩
      · simp only [Memory.above, List.all_cons, Bool.and_eq_true, decide_eq_true_eq]
        exact ⟨h.1, ih h.2⟩

theorem Memory.above_trans {j k : Nat} (hjk : j < k) {m : Memory} (h : Memory.above k m = true) :
    Memory.above j m = true := by
  simp only [Memory.above, List.all_eq_true, decide_eq_true_eq] at *
  exact fun x hx => Nat.lt_trans hjk (h x hx)

/-- A write keeps the canonical form. -/
theorem Memory.wf_write (a : Nat) (v : Byte) {m : Memory} (h : Memory.wf m = true) :
    Memory.wf (Memory.write a v m) = true := by
  induction m with
  | nil => simp [Memory.write, Memory.wf, Memory.above]
  | cons cell m ih =>
    obtain ⟨k, b⟩ := cell
    simp only [Memory.wf, Bool.and_eq_true] at h
    simp only [Memory.write]
    split
    · rename_i hlt
      simp only [Memory.wf, Bool.and_eq_true]
      refine ⟨?_, h⟩
      simp only [Memory.above, List.all_cons, Bool.and_eq_true, decide_eq_true_eq]
      exact ⟨hlt, Memory.above_trans hlt h.1⟩
    · split
      · rename_i heq
        subst heq
        simpa [Memory.wf] using h
      · rename_i h1 h2
        simp only [Memory.wf, Bool.and_eq_true]
        exact ⟨Memory.above_write (by omega) v h.1, ih h.2⟩

/-- An address holds a value exactly when it is listed. -/
theorem Memory.read_isSome {a : Nat} {m : Memory} : (Memory.read a m).isSome = true ↔ a ∈ m.map Prod.fst := by
  induction m with
  | nil => simp [Memory.read]
  | cons cell m ih =>
    obtain ⟨k, b⟩ := cell
    simp only [Memory.read, List.map_cons, List.mem_cons]
    split
    · simp [*]
    · rw [ih]
      constructor
      · exact .inr
      · rintro (h | h)
        · exact absurd h.symm ‹_›
        · exact h

/-- A memory whose addresses are strictly rising as a list is in canonical form. -/
theorem Memory.wf_of_pairwise {m : Memory} (h : (m.map Prod.fst).Pairwise (· < ·)) : Memory.wf m = true := by
  induction m with
  | nil => rfl
  | cons cell m ih =>
    simp only [List.map_cons, List.pairwise_cons] at h
    simp only [Memory.wf, Bool.and_eq_true, Memory.above, List.all_eq_true, decide_eq_true_eq]
    exact ⟨fun x hx => h.1 x.1 (List.mem_map_of_mem hx), ih h.2⟩

/-- A memory that lists exactly the first `n` addresses is in canonical form. -/
theorem Memory.wf_of_keys_range {m : Memory} {n : Nat} (h : m.map Prod.fst = List.range n) : Memory.wf m = true :=
  Memory.wf_of_pairwise (h ▸ List.pairwise_lt_range)

/-- In canonical form a write to a listed address lists the same addresses. -/
theorem Memory.keys_write {a : Nat} {v : Byte} {m : Memory} (hw : Memory.wf m = true) (h : a ∈ m.map Prod.fst) :
    (Memory.write a v m).map Prod.fst = m.map Prod.fst := by
  induction m with
  | nil => simp at h
  | cons cell m ih =>
    obtain ⟨k, b⟩ := cell
    simp only [Memory.wf, Bool.and_eq_true, Memory.above, List.all_eq_true, decide_eq_true_eq] at hw
    simp only [Memory.write]
    split
    · rename_i hlt
      simp only [List.map_cons, List.mem_cons, List.mem_map] at h
      obtain rfl | ⟨x, hx, rfl⟩ := h
      · omega
      · have := hw.1 x hx
        omega
    · split
      · simp [*]
      · simp only [List.map_cons, List.cons.injEq, true_and]
        refine ih hw.2 ?_
        simpa [*] using h

/-- A write above every listed address appends. -/
theorem Memory.write_append {a : Nat} {v : Byte} {m : Memory} (h : ∀ k ∈ m.map Prod.fst, k < a) :
    Memory.write a v m = m ++ [(a, v)] := by
  induction m with
  | nil => rfl
  | cons cell m ih =>
    obtain ⟨k, b⟩ := cell
    have hk : k < a := h k (by simp)
    have h1 : ¬ a < k := by omega
    have h2 : ¬ a = k := by omega
    simp only [Memory.write, h1, h2, if_false, List.cons_append, List.cons.injEq, true_and]
    exact ih fun k' hk' => h k' (by simp only [List.map_cons, List.mem_cons]; exact .inr hk')

/-- One value written to each address of a list, in order. -/
def Memory.writeAll (v : Byte) (as : List Nat) (m : Memory) : Memory := as.foldl (fun m a => Memory.write a v m) m

@[simp] theorem Memory.writeAll_nil (v : Byte) (m : Memory) : Memory.writeAll v [] m = m := rfl
@[simp] theorem Memory.writeAll_cons (v : Byte) (a : Nat) (as : List Nat) (m : Memory) :
    Memory.writeAll v (a :: as) m = Memory.writeAll v as (Memory.write a v m) := rfl

theorem Memory.writeAll_append (v : Byte) (as bs : List Nat) (m : Memory) :
    Memory.writeAll v (as ++ bs) m = Memory.writeAll v bs (Memory.writeAll v as m) := List.foldl_append

theorem Memory.read_writeAll_other {a : Nat} (v : Byte) {as : List Nat} (h : a ∉ as) (m : Memory) :
    Memory.read a (Memory.writeAll v as m) = Memory.read a m := by
  induction as generalizing m with
  | nil => rfl
  | cons b bs ih =>
    simp only [List.mem_cons, not_or] at h
    rw [Memory.writeAll_cons, ih h.2, Memory.read_write_other h.1]

theorem Memory.read_writeAll_mem {a : Nat} (v : Byte) {as : List Nat} (h : a ∈ as) (m : Memory) :
    Memory.read a (Memory.writeAll v as m) = some v := by
  induction as generalizing m with
  | nil => simp at h
  | cons b bs ih =>
    rw [Memory.writeAll_cons]
    by_cases hb : a ∈ bs
    · exact ih hb _
    · rw [Memory.read_writeAll_other v hb]
      obtain rfl | h' := List.mem_cons.mp h
      · simp
      · exact absurd h' hb

theorem Memory.wf_writeAll (v : Byte) (as : List Nat) {m : Memory} (h : Memory.wf m = true) :
    Memory.wf (Memory.writeAll v as m) = true := by
  induction as generalizing m with
  | nil => exact h
  | cons a as ih => exact ih (Memory.wf_write a v h)

theorem Memory.keys_writeAll {v : Byte} {as : List Nat} {m : Memory} (hw : Memory.wf m = true)
    (h : ∀ a ∈ as, a ∈ m.map Prod.fst) : (Memory.writeAll v as m).map Prod.fst = m.map Prod.fst := by
  induction as generalizing m with
  | nil => rfl
  | cons a as ih =>
    have hk := Memory.keys_write (v := v) hw (h a (by simp))
    rw [Memory.writeAll_cons, ih (Memory.wf_write a v hw), hk]
    intro b hb
    rw [hk]
    exact h b (by simp [hb])

/-- Writing the first `n` addresses of an empty memory in order lists exactly them. -/
theorem Memory.writeAll_range_nil (v : Byte) (n : Nat) :
    Memory.writeAll v (List.range n) [] = (List.range n).map fun a => (a, v) := by
  induction n with
  | zero => rfl
  | succ n ih =>
    rw [List.range_succ, Memory.writeAll_append, ih, Memory.writeAll_cons, Memory.writeAll_nil,
      Memory.write_append, List.map_append]
    · rfl
    · simp

/-- In canonical form nothing is listed at or below the first address again. -/
theorem Memory.read_below {k a : Nat} {b : Byte} {m : Memory} (h : Memory.wf ((k, b) :: m) = true) (ha : a ≤ k) :
    Memory.read a m = none := by
  simp only [Memory.wf, Bool.and_eq_true, Memory.above, List.all_eq_true, decide_eq_true_eq] at h
  cases hr : Memory.read a m with
  | none => rfl
  | some v =>
    obtain ⟨cell, hc, rfl⟩ := List.mem_map.mp (Memory.read_isSome.mp (by rw [hr]; rfl : (Memory.read a m).isSome = true))
    have := h.1 cell hc
    omega

/-- Memories in canonical form that read alike are equal data. -/
theorem Memory.ext_read {m n : Memory} (hm : Memory.wf m = true) (hn : Memory.wf n = true)
    (h : ∀ a, Memory.read a m = Memory.read a n) : m = n := by
  induction m generalizing n with
  | nil =>
    cases n with
    | nil => rfl
    | cons c n => have := h c.1; simp [Memory.read] at this
  | cons c m ih =>
    obtain ⟨k, b⟩ := c
    cases n with
    | nil => have := h k; simp [Memory.read] at this
    | cons d n =>
      obtain ⟨j, c⟩ := d
      have hkj : k = j := by
        by_contra hne
        obtain hlt | hlt := Nat.lt_or_gt_of_ne hne
        · have := h k
          simp [Memory.read, Ne.symm hne, Memory.read_below hn (Nat.le_of_lt hlt)] at this
        · have := h j
          simp [Memory.read, hne, Memory.read_below hm (Nat.le_of_lt hlt)] at this
      subst hkj
      have hb := h k
      simp only [Memory.read, if_true, Option.some.injEq] at hb
      subst hb
      have hm' := hm
      have hn' := hn
      simp only [Memory.wf, Bool.and_eq_true] at hm' hn'
      refine congrArg _ (ih hm'.2 hn'.2 fun a => ?_)
      by_cases hak : k = a
      · subst hak
        rw [Memory.read_below hm (Nat.le_refl _), Memory.read_below hn (Nat.le_refl _)]
      · simpa [Memory.read, hak] using h a

/-- Writing the value an address holds changes nothing. -/
theorem Memory.write_same {a : Nat} {v : Byte} {m : Memory} (hm : Memory.wf m = true) (h : Memory.read a m = some v) :
    Memory.write a v m = m := by
  refine Memory.ext_read (Memory.wf_write a v hm) hm fun k => ?_
  by_cases hk : k = a
  · subst hk
    simp [h]
  · rw [Memory.read_write_other hk]

/-- The frame buffer after reset lists nothing, in canonical form. -/
theorem reset_memory_wf (cfg : Config) : Memory.wf (State.resetWith cfg).fb = true := rfl

end Sys2Proof.Machine
end

