-- ==== Sys2Proof/Laws/Buffer.lean ====
section
/-! SUPPORT. What each operation over the frame buffer answers. -/

namespace Sys2Proof.Machine

variable {s t : State} {c i : Nat}

/-- A byte read of a byte that exists and holds a value. -/
theorem fbRead_next {b : Byte} (hc : c < s.cfg.channelCount) (hi : i < s.cfg.len)
    (hb : Memory.read (fbAddr s.cfg c i) s.fb = some b) : fbRead c i s = .next b := by
  simp [fbRead, hc, hi, hb]

/-- A byte read that answers gives the byte. -/
theorem fbRead_eq_next {b : Byte} : fbRead c i s = .next b ↔
    c < s.cfg.channelCount ∧ i < s.cfg.len ∧ Memory.read (fbAddr s.cfg c i) s.fb = some b := by
  unfold fbRead
  split
  · rename_i h
    split <;> simp_all
  · rename_i h
    simp only [reduceCtorEq, false_iff]
    tauto

/-- A byte write to a byte that exists. -/
theorem fbWrite_next {v : Byte} (hc : c < s.cfg.channelCount) (hi : i < s.cfg.len) :
    fbWrite c i v s = .next { s with fb := Memory.write (fbAddr s.cfg c i) v s.fb } := by
  simp [fbWrite, hc, hi]

theorem fbWrite_eq_next {v : Byte} : fbWrite c i v s = .next t ↔
    c < s.cfg.channelCount ∧ i < s.cfg.len ∧ t = { s with fb := Memory.write (fbAddr s.cfg c i) v s.fb } := by
  unfold fbWrite
  split
  · rename_i h
    simp [h, eq_comm]
  · rename_i h
    simp only [reduceCtorEq, false_iff]
    tauto

/-- The one write of a pixel operation (R58, R59). -/
theorem writePixelAt_next {on : Bool} {p : PixelAddr} {b : Byte} (hc : s.activeChannel.toNat < s.cfg.channelCount)
    (ho : p.offset < s.cfg.len) (hb : Memory.read (fbAddr s.cfg s.activeChannel.toNat p.offset) s.fb = some b) :
    writePixelAt on p s = .next { s with
      fb := Memory.write (fbAddr s.cfg s.activeChannel.toNat p.offset) (pixelInto on p.mask b) s.fb } := by
  simp [writePixelAt, fbRead_next hc ho hb, fbWrite_next hc ho]

theorem writePixelAt_eq_next {on : Bool} {p : PixelAddr} : writePixelAt on p s = .next t ↔
    s.activeChannel.toNat < s.cfg.channelCount ∧ p.offset < s.cfg.len ∧
      ∃ b, Memory.read (fbAddr s.cfg s.activeChannel.toNat p.offset) s.fb = some b ∧
        t = { s with fb := Memory.write (fbAddr s.cfg s.activeChannel.toNat p.offset) (pixelInto on p.mask b) s.fb } := by
  simp only [writePixelAt, andThen_eq_next, fbRead_eq_next, fbWrite_eq_next]
  constructor
  · rintro ⟨b, ⟨h1, h2, h3⟩, -, -, h4⟩
    exact ⟨h1, h2, b, h3, h4⟩
  · rintro ⟨h1, h2, b, h3, h4⟩
    exact ⟨b, ⟨h1, h2, h3⟩, h1, h2, h4⟩

/-- A pixel operation that answers a next state changes at most the frame buffer, by one write to a byte that holds a
value. -/
theorem plotPixel_eq_next {on : Bool} {x y : Byte} (h : plotPixel on x y s = .next t) :
    t = s ∨ ∃ a v, (Memory.read a s.fb).isSome = true ∧ t = { s with fb := Memory.write a v s.fb } := by
  unfold plotPixel at h
  split at h
  · simp only [Host.Outcome.next.injEq] at h
    exact .inl h.symm
  · obtain ⟨-, -, b, hb, ht⟩ := writePixelAt_eq_next.mp h
    exact .inr ⟨_, _, by simp [hb], ht⟩

/-- A loop of byte writes over a channel that exists. -/
theorem fillChannel_next {v : Byte} (hc : c < s.cfg.channelCount) :
    fillChannel v c s = .next { s with fb := Memory.writeAll v ((List.range s.cfg.len).map (fbAddr s.cfg c)) s.fb } := by
  have loop : ∀ (is : List Nat) (s : State), c < s.cfg.channelCount → (∀ i ∈ is, i < s.cfg.len) →
      forEach (fun i => fbWrite c i v) is s
        = .next { s with fb := Memory.writeAll v (is.map (fbAddr s.cfg c)) s.fb } := by
    intro is
    induction is with
    | nil => intros; rfl
    | cons i is ih =>
      intro s hc hi
      rw [forEach_cons, fbWrite_next hc (hi i (by simp)), andThen_next, ih]
      · simp
      · exact hc
      · exact fun j hj => hi j (by simp [hj])
  exact loop _ s hc fun i hi => List.mem_range.mp hi

/-- A channel that does not exist cannot be filled, unless it has no bytes. -/
theorem fillChannel_eq_next {v : Byte} (hl : 0 < s.cfg.len) : fillChannel v c s = .next t ↔
    c < s.cfg.channelCount ∧
      t = { s with fb := Memory.writeAll v ((List.range s.cfg.len).map (fbAddr s.cfg c)) s.fb } := by
  by_cases hc : c < s.cfg.channelCount
  · simp [fillChannel_next hc, hc, eq_comm]
  · simp only [hc, false_and, iff_false]
    intro h
    unfold fillChannel at h
    obtain ⟨n, hn⟩ := Nat.exists_eq_add_of_lt hl
    rw [show s.cfg.len = n + 1 by omega, List.range_succ_eq_map, forEach_cons, andThen_eq_next] at h
    obtain ⟨u, hu, -⟩ := h
    exact hc (fbWrite_eq_next.mp hu).1

/-- Zeroing the buffer writes 0 to the addresses `0 .. CHANNEL_COUNT * LEN - 1` in order. -/
theorem zeroBuffer_next (s : State) :
    zeroBuffer s = .next { s with fb := Memory.writeAll 0 (List.range s.cfg.bufferBytes) s.fb } := by
  have loop : ∀ (cs : List Nat) (s : State), (∀ c ∈ cs, c < s.cfg.channelCount) →
      forEach (fillChannel 0) cs s
        = .next { s with
            fb := Memory.writeAll 0 (cs.flatMap fun c => (List.range s.cfg.len).map (fbAddr s.cfg c)) s.fb } := by
    intro cs
    induction cs with
    | nil => intros; rfl
    | cons c cs ih =>
      intro s hc
      rw [forEach_cons, fillChannel_next (hc c (by simp)), andThen_next]
      refine (ih _ ?_).trans ?_
      · exact fun d hd => hc d (by simp [hd])
      · simp [Memory.writeAll_append]
  rw [zeroBuffer, loop _ _ fun c hc => List.mem_range.mp hc, flatMap_fbAddr]
  rfl

/-- Every byte that exists holds a value where the buffer is listed whole. -/
theorem read_of_keys {a : Nat} (h : s.fb.map Prod.fst = List.range s.cfg.bufferBytes) (ha : a < s.cfg.bufferBytes) :
    ∃ b, Memory.read a s.fb = some b :=
  Option.isSome_iff_exists.mp (Memory.read_isSome.mpr (by simpa [h] using ha))

/-- A memory that lists `0, 1, …` reads as its bytes in order. -/
theorem map_read_of_keys {m : Memory} {n k : Nat} (h : m.map Prod.fst = (List.range n).map (k + ·)) :
    (List.range n).map (fun a => (Memory.read (k + a) m).getD 0) = m.map Prod.snd := by
  induction n generalizing m k with
  | zero => simp_all
  | succ n ih =>
    cases m with
    | nil => simp [List.range_succ_eq_map] at h
    | cons cell m =>
      obtain ⟨a, b⟩ := cell
      rw [List.range_succ_eq_map] at h
      simp only [List.map_cons, List.map_map, List.cons.injEq, Nat.add_zero] at h
      obtain ⟨rfl, h⟩ := h
      have h' : m.map Prod.fst = (List.range n).map (a + 1 + ·) := by
        rw [h]
        exact List.map_congr_left fun x _ => by simp; omega
      have := ih h'
      rw [List.range_succ_eq_map, List.map_cons, List.map_map, List.map_cons, ← this]
      simp only [Memory.read, Nat.add_zero, if_true, Option.getD_some, List.cons.injEq, true_and]
      refine List.map_congr_left fun x _ => ?_
      have hne : ¬ a = a + (x + 1) := by omega
      simp only [Function.comp, Nat.succ_eq_add_one, hne, if_false]
      congr 2
      omega

/-- Reading the whole buffer gives its bytes in address order (R31). -/
theorem readBuffer_of_reads {f : Nat → Byte} (h : ∀ a < s.cfg.bufferBytes, Memory.read a s.fb = some (f a)) :
    readBuffer s = .next ((List.range s.cfg.bufferBytes).map f) := by
  have hinner : ∀ c ∈ List.range s.cfg.channelCount,
      collect (fun i => fbRead c i s) (List.range s.cfg.len)
        = .next ((List.range s.cfg.len).map fun i => f (fbAddr s.cfg c i)) := by
    intro c hc
    refine collect_eq_next fun i hi => ?_
    rw [List.mem_range] at hc hi
    exact fbRead_next hc hi (h _ (fbAddr_lt hc hi))
  rw [readBuffer, collect_eq_next hinner, andThen_next, Host.Outcome.next.injEq, ← List.flatMap_def]
  have hflat := congrArg (List.map f) (flatMap_fbAddr s.cfg s.cfg.channelCount)
  simp only [List.map_flatMap, List.map_map] at hflat
  exact hflat

theorem readBuffer_next (h : s.fb.map Prod.fst = List.range s.cfg.bufferBytes) :
    readBuffer s = .next (s.fb.map Prod.snd) := by
  have hkeys := map_read_of_keys (m := s.fb) (n := s.cfg.bufferBytes) (k := 0) (by simp [h])
  simp only [Nat.zero_add] at hkeys
  rw [← hkeys]
  refine readBuffer_of_reads fun a ha => ?_
  obtain ⟨b, hb⟩ := read_of_keys h ha
  simp [hb]

/-- A render where the buffer is listed whole. -/
theorem renderTo_next {k : Nat} (h : s.fb.map Prod.fst = List.range s.cfg.bufferBytes) :
    renderTo k s = .next (s.emit (transaction s.cfg (chipMask k) (writeRamFrame s.cfg (s.fb.map Prod.snd)))) := by
  simp [renderTo, readBuffer_next h]

/-- A render that answers only emits a transaction. -/
theorem renderTo_eq_next {k : Nat} (h : renderTo k s = .next t) :
    ∃ bytes, t = s.emit (transaction s.cfg (chipMask k) (writeRamFrame s.cfg bytes)) := by
  obtain ⟨bytes, -, ht⟩ := andThen_eq_next.mp h
  simp only [Host.Outcome.next.injEq] at ht
  exact ⟨bytes, ht.symm⟩

/-- A byte write keeps the canonical form. -/
theorem fbWrite_wf {v : Byte} (hm : Memory.wf s.fb = true) (h : fbWrite c i v s = .next t) : Memory.wf t.fb = true := by
  obtain ⟨-, -, rfl⟩ := fbWrite_eq_next.mp h
  exact Memory.wf_write _ _ hm

/-- Reading the whole buffer gives one byte for each that exists. -/
theorem readBuffer_length {bytes : List Byte} (h : readBuffer s = .next bytes) : bytes.length = s.cfg.bufferBytes := by
  obtain ⟨channels, hc, h⟩ := andThen_eq_next.mp h
  rw [Host.Outcome.next.injEq] at h
  have hlen := collect_length hc
  have hall := collect_all (P := fun bs => bs.length = s.cfg.len) (fun c bs h => by simpa using collect_length h) hc
  rw [List.length_range] at hlen
  rw [← h, List.length_flatten, Config.bufferBytes, ← hlen]
  clear hc h hlen
  induction channels with
  | nil => simp
  | cons c cs ih =>
    simp only [List.map_cons, List.sum_cons, List.length_cons]
    rw [ih fun bs hbs => hall bs (by simp [hbs]), hall c (by simp)]
    ring

end Sys2Proof.Machine
end

