-- ==== Sys2Proof/Laws/Encoding.lean ====
section
/-! SUPPORT. The fields of a word made from fields, and the word made from its fields (R43). -/

namespace Sys2Proof

theorem wordOf_toNat (op : BitVec 4) (a b c : Byte) :
    (wordOf op a b c).toNat = op.toNat * 2 ^ 28 + a.toNat * 2 ^ 16 + b.toNat * 2 ^ 8 + c.toNat := by
  have := op.isLt
  have := a.isLt
  have := b.isLt
  have := c.isLt
  rw [wordOf, BitVec.toNat_ofNat, Nat.mod_eq_of_lt]
  omega

/-- A field as a quotient and a remainder of the word's number. -/
theorem extract_toNat (w : OpWord) (lo n : Nat) : (w.extractLsb' lo n).toNat = w.toNat / 2 ^ lo % 2 ^ n := by
  simp [BitVec.extractLsb'_toNat, Nat.shiftRight_eq_div_pow]

theorem fieldOp_wordOf (op : BitVec 4) (a b c : Byte) : fieldOp (wordOf op a b c) = op := by
  have := op.isLt; have := a.isLt; have := b.isLt; have := c.isLt
  apply BitVec.eq_of_toNat_eq
  rw [fieldOp, extract_toNat, wordOf_toNat]
  omega

theorem fieldReserved_wordOf (op : BitVec 4) (a b c : Byte) : fieldReserved (wordOf op a b c) = 0 := by
  have := op.isLt; have := a.isLt; have := b.isLt; have := c.isLt
  apply BitVec.eq_of_toNat_eq
  rw [fieldReserved, extract_toNat, wordOf_toNat]
  simp only [BitVec.ofNat_eq_ofNat, BitVec.toNat_ofNat]
  omega

theorem fieldA_wordOf (op : BitVec 4) (a b c : Byte) : fieldA (wordOf op a b c) = a := by
  have := op.isLt; have := a.isLt; have := b.isLt; have := c.isLt
  apply BitVec.eq_of_toNat_eq
  rw [fieldA, extract_toNat, wordOf_toNat]
  omega

theorem fieldB_wordOf (op : BitVec 4) (a b c : Byte) : fieldB (wordOf op a b c) = b := by
  have := op.isLt; have := a.isLt; have := b.isLt; have := c.isLt
  apply BitVec.eq_of_toNat_eq
  rw [fieldB, extract_toNat, wordOf_toNat]
  omega

theorem fieldC_wordOf (op : BitVec 4) (a b c : Byte) : fieldC (wordOf op a b c) = c := by
  have := op.isLt; have := a.isLt; have := b.isLt; have := c.isLt
  apply BitVec.eq_of_toNat_eq
  rw [fieldC, extract_toNat, wordOf_toNat]
  omega

/-- A word whose reserved bits are 0 is made from its fields. -/
theorem wordOf_fields {w : OpWord} (h : fieldReserved w = 0) :
    wordOf (fieldOp w) (fieldA w) (fieldB w) (fieldC w) = w := by
  have := w.isLt
  have hr := congrArg BitVec.toNat h
  rw [fieldReserved, extract_toNat] at hr
  simp only [BitVec.ofNat_eq_ofNat, BitVec.toNat_ofNat] at hr
  apply BitVec.eq_of_toNat_eq
  rw [wordOf_toNat, fieldOp, fieldA, fieldB, fieldC]
  simp only [extract_toNat]
  omega

/-- Words are equal when their five fields are. -/
theorem word_ext {v w : OpWord} (ho : fieldOp v = fieldOp w) (hr : fieldReserved v = fieldReserved w)
    (ha : fieldA v = fieldA w) (hb : fieldB v = fieldB w) (hc : fieldC v = fieldC w) : v = w := by
  have := v.isLt
  have := w.isLt
  have ho := congrArg BitVec.toNat ho
  have hr := congrArg BitVec.toNat hr
  have ha := congrArg BitVec.toNat ha
  have hb := congrArg BitVec.toNat hb
  have hc := congrArg BitVec.toNat hc
  simp only [fieldOp, fieldReserved, fieldA, fieldB, fieldC, extract_toNat] at ho hr ha hb hc
  apply BitVec.eq_of_toNat_eq
  omega

/-- A masked word is another word exactly when its masked fields are the other's fields. -/
theorem masked_eq_iff {w mask v : OpWord} : w &&& mask = v ↔
    fieldOp w &&& fieldOp mask = fieldOp v ∧ fieldReserved w &&& fieldReserved mask = fieldReserved v ∧
      fieldA w &&& fieldA mask = fieldA v ∧ fieldB w &&& fieldB mask = fieldB v ∧ fieldC w &&& fieldC mask = fieldC v := by
  have h : ∀ lo n, (w &&& mask).extractLsb' lo n = w.extractLsb' lo n &&& mask.extractLsb' lo n := fun lo n =>
    BitVec.extractLsb'_and
  constructor
  · rintro rfl
    simp only [fieldOp, fieldReserved, fieldA, fieldB, fieldC, h, and_self]
  · rintro ⟨h1, h2, h3, h4, h5⟩
    apply word_ext <;> simp only [fieldOp, fieldReserved, fieldA, fieldB, fieldC, h] <;> assumption

theorem ifUnusedZero_eq_ok {zero : Bool} {i j : Instr} : ifUnusedZero zero i = .ok j ↔ zero = true ∧ i = j := by
  cases zero <;> simp [ifUnusedZero]

end Sys2Proof
end

