-- ==== Sys2Proof/Laws/Wire.lean ====
section
/-! SUPPORT. The pins and the wire: reads after writes of pins, what lists of events do to them, what the events of the
subroutines are made of, and their lengths. -/

namespace Sys2Proof.Machine

/-! ## Pins -/

@[simp] theorem Pins.get_put (ps : Pins) (p q : Pin) (v : PinState) :
    (ps.put p v).get q = if q = p then v else ps.get q := by
  cases p <;> cases q <;> simp only [Pins.put, Pins.get, reduceCtorEq, if_false, if_true, Pin.csN.injEq]
  rename_i i j
  simp only [Fin.getElem_fin, Vector.getElem_set]
  by_cases h : j = i
  · simp [h]
  · simp [h, Fin.val_ne_of_ne (Ne.symm h)]

/-- Pins are equal when every pin is. -/
theorem Pins.ext_get {a b : Pins} (h : ∀ p, a.get p = b.get p) : a = b := by
  obtain ⟨ca, wa, da, ka⟩ := a
  obtain ⟨cb, wb, db, kb⟩ := b
  have hc : ca = cb := Vector.ext fun i hi => h (.csN ⟨i, hi⟩)
  have hw : wa = wb := h .wr
  have hd : da = db := h .data
  have hk : ka = kb := h .clk
  subst hc hw hd hk
  rfl

@[simp] theorem Pins.get_reset (p : Pin) : Pins.reset.get p = .reset := by
  cases p with
  | csN i => simp [Pins.get, Pins.reset]
  | _ => rfl

@[simp] theorem Pins.run_nil (ps : Pins) : ps.run [] = ps := rfl
@[simp] theorem Pins.run_cons (ps : Pins) (e : Event) (es : List Event) : ps.run (e :: es) = (ps.apply e).run es := rfl
theorem Pins.run_append (ps : Pins) (es fs : List Event) : ps.run (es ++ fs) = (ps.run es).run fs := List.foldl_append

@[simp] theorem Pins.get_apply_cfg (ps : Pins) (p q : Pin) :
    (ps.apply (.cfg p)).get q = if q = p then ⟨.output, (ps.get p).level⟩ else ps.get q := by simp [Pins.apply]
@[simp] theorem Pins.get_apply_set (ps : Pins) (p q : Pin) (l : Bool) :
    (ps.apply (.set p l)).get q = if q = p then ⟨(ps.get p).mode, .ofBool l⟩ else ps.get q := by simp [Pins.apply]
@[simp] theorem Pins.apply_wait (ps : Pins) (t : Nat) : ps.apply (.wait t) = ps := rfl

@[simp] theorem Level.ofBool_true : Level.ofBool true = .high := rfl
@[simp] theorem Level.ofBool_false : Level.ofBool false = .low := rfl
theorem Level.ofBool_known (l : Bool) : Level.ofBool l ≠ .unknown := by cases l <;> decide

/-- The pin an event names. -/
def Event.pin? : Event → Option Pin
  | .cfg p => some p
  | .set p _ => some p
  | .wait _ => none

/-- An event leaves every pin but the one it names. -/
theorem Pins.get_apply_other {ps : Pins} {e : Event} {q : Pin} (h : e.pin? ≠ some q) :
    (ps.apply e).get q = ps.get q := by
  cases e <;> simp only [Event.pin?, ne_eq, Option.some.injEq] at h <;> simp [Ne.symm h]

/-- Events leave every pin that none of them names. -/
theorem Pins.get_run_other {ps : Pins} {es : List Event} {q : Pin} (h : ∀ e ∈ es, e.pin? ≠ some q) :
    (ps.run es).get q = ps.get q := by
  induction es generalizing ps with
  | nil => rfl
  | cons e es ih =>
    rw [Pins.run_cons, ih fun f hf => h f (by simp [hf]), Pins.get_apply_other (h e (by simp))]

/-! ## What the subroutines emit -/

@[simp] theorem msbFirst_zero (v : Byte) : msbFirst v 0 = [] := rfl
@[simp] theorem msbFirst_succ (v : Byte) (n : Nat) : msbFirst v (n + 1) = v.getLsbD n :: msbFirst v n := rfl
@[simp] theorem msbFirst_length (v : Byte) (n : Nat) : (msbFirst v n).length = n := by
  induction n with
  | zero => rfl
  | succ n ih => simp [ih]

@[simp] theorem bitEvents_length (cfg : Config) (b : Bool) : (bitEvents cfg b).length = 4 := rfl

theorem flatMap_bitEvents_length (cfg : Config) (bs : List Bool) : (bs.flatMap (bitEvents cfg)).length = 4 * bs.length := by
  induction bs with
  | nil => rfl
  | cons b bs ih => simp only [List.flatMap_cons, List.length_append, ih, bitEvents_length, List.length_cons]; omega

@[simp] theorem writeBitsEvents_length (cfg : Config) (v : Byte) (n : Nat) : (writeBitsEvents cfg v n).length = 4 * n := by
  rw [writeBitsEvents, flatMap_bitEvents_length, msbFirst_length]

@[simp] theorem padEvents_length (cfg : Config) : (padEvents cfg).length = 4 := rfl

@[simp] theorem byteEvents_length (cfg : Config) (d : Byte) : (byteEvents cfg d).length = 32 := by simp [byteEvents]

theorem selectLines_length {cfg : Config} (h : cfg.wellFormed = true) (mask : Byte) :
    (selectLines cfg mask).length = cfg.numChips := by
  simp [selectLines, csLines_length h]

@[simp] theorem writeRamFrame_length (cfg : Config) (bytes : List Byte) :
    (writeRamFrame cfg bytes).length = 40 + 32 * bytes.length := by
  have h : (bytes.flatMap (byteEvents cfg)).length = 32 * bytes.length := by
    induction bytes with
    | nil => rfl
    | cons d ds ih => simp only [List.flatMap_cons, List.length_append, ih, byteEvents_length, List.length_cons]; omega
  simp only [writeRamFrame, List.length_append, writeBitsEvents_length, h]

@[simp] theorem commandFrame_length (cfg : Config) (codes : List Byte) :
    (commandFrame cfg codes).length = 12 + 36 * codes.length := by
  have h : (codes.flatMap fun c => writeBitsEvents cfg c 8 ++ padEvents cfg).length = 36 * codes.length := by
    induction codes with
    | nil => rfl
    | cons d ds ih =>
      simp only [List.flatMap_cons, List.length_append, ih, writeBitsEvents_length, padEvents_length, List.length_cons]
      omega
  simp only [commandFrame, List.length_append, writeBitsEvents_length, h]

theorem transaction_length {cfg : Config} (h : cfg.wellFormed = true) (mask : Byte) (frame : List Event) :
    (transaction cfg mask frame).length = 2 * cfg.numChips + frame.length := by
  simp only [transaction, List.length_append, selectLines_length h]
  omega

/-- A frame-buffer byte goes on the wire as its eight bits, most significant first (R36). -/
theorem byteEvents_eq (cfg : Config) (d : Byte) : byteEvents cfg d = writeBitsEvents cfg d 8 := by
  have h : msbFirst (highNibble d) 4 ++ msbFirst (lowNibble d) 4 = msbFirst d 8 := by decide +revert
  simp only [byteEvents, writeBitsEvents, ← h, List.flatMap_append]

/-- The events an operation may send after INIT: chip-select writes of configured lines and whole bits. -/
inductive Sent (cfg : Config) : List Event → Prop where
  | nil : Sent cfg []
  | line (i : Fin 4) (l : Bool) {es : List Event} (hi : i.val < cfg.numChips) (h : Sent cfg es) :
      Sent cfg (.set (.csN i) l :: es)
  | bit (b : Bool) {es : List Event} (h : Sent cfg es) :
      Sent cfg (.set .data b :: .wait cfg.tProp :: .set .wr true :: .set .wr false :: es)

theorem Sent.append {cfg : Config} {es fs : List Event} (he : Sent cfg es) (hf : Sent cfg fs) : Sent cfg (es ++ fs) := by
  induction he with
  | nil => exact hf
  | line i l hi _ ih => exact .line i l hi ih
  | bit b _ ih => exact .bit b ih

theorem Sent.flatMap {cfg : Config} {α : Type} {f : α → List Event} (h : ∀ a, Sent cfg (f a)) (as : List α) :
    Sent cfg (as.flatMap f) := by
  induction as with
  | nil => exact .nil
  | cons a as ih => exact (h a).append ih

theorem sent_bitEvents (cfg : Config) (b : Bool) : Sent cfg (bitEvents cfg b) := .bit b .nil
theorem sent_writeBits (cfg : Config) (v : Byte) (n : Nat) : Sent cfg (writeBitsEvents cfg v n) :=
  .flatMap (sent_bitEvents cfg) _
theorem sent_pad (cfg : Config) : Sent cfg (padEvents cfg) := sent_bitEvents cfg _

theorem sent_selectLines (cfg : Config) (mask : Byte) : Sent cfg (selectLines cfg mask) := by
  have h : ∀ ls : List (Fin 4), (∀ i ∈ ls, i.val < cfg.numChips) →
      Sent cfg (ls.map fun i => .set (.csN i) (!mask.getLsbD i.val)) := by
    intro ls
    induction ls with
    | nil => exact fun _ => .nil
    | cons i ls ih => exact fun h => .line i _ (h i (by simp)) (ih fun j hj => h j (by simp [hj]))
  exact h _ fun i hi => mem_csLines.mp hi

theorem sent_writeRamFrame (cfg : Config) (bytes : List Byte) : Sent cfg (writeRamFrame cfg bytes) :=
  ((sent_writeBits _ _ _).append (sent_writeBits _ _ _)).append
    (.flatMap (fun _ => (sent_writeBits _ _ _).append (sent_writeBits _ _ _)) _)

theorem sent_commandFrame (cfg : Config) (codes : List Byte) : Sent cfg (commandFrame cfg codes) :=
  (sent_writeBits _ _ _).append (.flatMap (fun _ => (sent_writeBits _ _ _).append (sent_pad _)) _)

theorem sent_transaction {cfg : Config} (mask : Byte) {frame : List Event} (h : Sent cfg frame) :
    Sent cfg (transaction cfg mask frame) :=
  ((sent_selectLines _ _).append h).append (sent_selectLines _ _)

/-- What is sent keeps the mode of every pin. -/
theorem Sent.mode {cfg : Config} {es : List Event} (h : Sent cfg es) (ps : Pins) (p : Pin) :
    ((ps.run es).get p).mode = (ps.get p).mode := by
  induction h generalizing ps with
  | nil => rfl
  | line i l hi _ ih => rw [Pins.run_cons, ih]; simp only [Pins.get_apply_set]; split <;> simp [*]
  | bit b _ ih =>
    simp only [Pins.run_cons, Pins.apply_wait, ih, Pins.get_apply_set]
    repeat' split
    all_goals simp_all

/-- What is sent leaves WR low where WR was low (R27). -/
theorem Sent.strobe_low {cfg : Config} {es : List Event} (h : Sent cfg es) {ps : Pins}
    (hw : (ps.get .wr).level = .low) : ((ps.run es).get .wr).level = .low := by
  induction h generalizing ps with
  | nil => exact hw
  | line i l hi _ ih => exact ih (by simpa using hw)
  | bit b _ ih => exact ih (by simp)

/-- What is sent keeps a known level known. -/
theorem Sent.known {cfg : Config} {es : List Event} (h : Sent cfg es) {ps : Pins} {p : Pin}
    (hp : (ps.get p).level ≠ .unknown) : ((ps.run es).get p).level ≠ .unknown := by
  induction h generalizing ps with
  | nil => exact hp
  | line i l hi _ ih =>
    refine ih ?_
    rw [Pins.get_apply_set]
    split
    · exact Level.ofBool_known l
    · exact hp
  | bit b _ ih =>
    refine ih ?_
    simp only [Pins.apply_wait, Pins.get_apply_set]
    repeat' split
    all_goals first | exact hp | exact Level.ofBool_known _ | exact Level.ofBool_known false

/-- What is sent names no pin but the configured lines, WR and DATA. -/
theorem Sent.names {cfg : Config} {es : List Event} (h : Sent cfg es) :
    ∀ e ∈ es, ∀ p, e.pin? = some p → p ≠ .clk ∧ hasPin cfg p = true := by
  induction h with
  | nil => simp
  | line i l hi _ ih =>
    intro e he p hp
    obtain rfl | he := List.mem_cons.mp he
    · obtain rfl := Option.some.inj hp
      simpa [hasPin] using hi
    · exact ih e he p hp
  | bit b _ ih =>
    intro e he p hp
    simp only [List.mem_cons] at he
    obtain rfl | rfl | rfl | rfl | he := he
    · obtain rfl := Option.some.inj hp; simp [hasPin]
    · simp [Event.pin?] at hp
    · obtain rfl := Option.some.inj hp; simp [hasPin]
    · obtain rfl := Option.some.inj hp; simp [hasPin]
    · exact ih e he p hp

/-- What is sent leaves CLK and the lines that are not configured. -/
theorem Sent.untouched {cfg : Config} {es : List Event} (h : Sent cfg es) (ps : Pins) {p : Pin}
    (hp : p = .clk ∨ hasPin cfg p = false) : (ps.run es).get p = ps.get p := by
  refine Pins.get_run_other fun e he hpe => ?_
  obtain ⟨h1, h2⟩ := h.names e he p hpe
  obtain h | h := hp
  · exact h1 h
  · simp [h] at h2

/-- Every wait that is sent is one propagation delay (R76). -/
theorem Sent.waits {cfg : Config} {es : List Event} (h : Sent cfg es) : ∀ t, .wait t ∈ es → t = cfg.tProp := by
  induction h with
  | nil => simp
  | line i l hi _ ih => simpa using ih
  | bit b _ ih => simpa using ih

/-- After `selectLines(mask)` each configured line is low where its bit is set and high otherwise (R67). -/
theorem get_run_selectLines (cfg : Config) (mask : Byte) (ps : Pins) (q : Pin) :
    (ps.run (selectLines cfg mask)).get q =
      match q with
      | .csN i => if i.val < cfg.numChips then ⟨(ps.get (.csN i)).mode, .ofBool (!mask.getLsbD i.val)⟩ else ps.get (.csN i)
      | q => ps.get q := by
  have key : ∀ (ls : List (Fin 4)) (ps : Pins) (i : Fin 4),
      (ps.run (ls.map fun i => .set (.csN i) (!mask.getLsbD i.val))).get (.csN i)
        = if i ∈ ls then ⟨(ps.get (.csN i)).mode, .ofBool (!mask.getLsbD i.val)⟩ else ps.get (.csN i) := by
    intro ls
    induction ls with
    | nil => intros; rfl
    | cons j ls ih =>
      intro ps i
      rw [List.map_cons, Pins.run_cons, ih]
      by_cases hj : i = j <;> by_cases hm : i ∈ ls <;> simp_all
  cases q with
  | csN i =>
    have h := key (csLines cfg) ps i
    simp only [mem_csLines] at h
    exact h
  | _ =>
    refine Pins.get_run_other fun e he => ?_
    obtain ⟨i, -, rfl⟩ := List.mem_map.mp he
    simp [Event.pin?]

/-- After `selectLines(0)` every configured line is high (R69), so a block with WR low is Idle (R26). -/
theorem idle_after_deselect {cfg : Config} {ps : Pins} (h : (ps.get .wr).level = .low) :
    (ps.run (selectLines cfg 0)).idle cfg = true := by
  simp only [Pins.idle, Bool.and_eq_true, List.all_eq_true, beq_iff_eq]
  constructor
  · intro i hi
    have := get_run_selectLines cfg 0 ps (.csN i)
    simp only [mem_csLines.mp hi, if_true] at this
    have := congrArg PinState.level this
    simpa [Pins.get] using this
  · have := get_run_selectLines cfg 0 ps .wr
    have := congrArg PinState.level this
    simpa [Pins.get, h] using this.trans h

/-- After whole bits DATA is at the last bit and WR is low; no bits change nothing (R71, R72). -/
theorem get_run_bits (cfg : Config) (bs : List Bool) (ps : Pins) (q : Pin) :
    (ps.run (bs.flatMap (bitEvents cfg))).get q =
      match bs.getLast? with
      | none => ps.get q
      | some b =>
        if q = .data then ⟨(ps.get q).mode, .ofBool b⟩ else if q = .wr then ⟨(ps.get q).mode, .low⟩ else ps.get q := by
  induction bs generalizing ps with
  | nil => rfl
  | cons b bs ih =>
    rw [List.flatMap_cons, Pins.run_append, ih]
    cases bs with
    | nil =>
      simp only [bitEvents, Pins.run_cons, Pins.run_nil, Pins.apply_wait, Pins.get_apply_set]
      cases q <;> simp
    | cons c cs =>
      simp only [bitEvents, Pins.run_cons, Pins.run_nil, Pins.apply_wait, Pins.get_apply_set, List.getLast?_cons_cons]
      cases hl : (c :: cs).getLast? with
      | none => simp at hl
      | some l => cases q <;> simp

/-- The last of the bits in wire order is bit 0. -/
theorem msbFirst_getLast? (v : Byte) (n : Nat) : (msbFirst v (n + 1)).getLast? = some (v.getLsbD 0) := by
  induction n with
  | zero => rfl
  | succ n ih => rw [msbFirst_succ, msbFirst_succ, List.getLast?_cons_cons, ← msbFirst_succ, ih]

/-- A transaction whose frame holds at least one bit ends Idle (R69, R26). -/
theorem transaction_idle {cfg : Config} {mask : Byte} {frame rest : List Event} {b : Bool} {ps : Pins}
    (hf : frame = bitEvents cfg b ++ rest) (hr : Sent cfg rest) : (ps.run (transaction cfg mask frame)).idle cfg = true := by
  rw [transaction, Pins.run_append]
  refine idle_after_deselect ?_
  rw [Pins.run_append, hf, Pins.run_append]
  exact hr.strobe_low (by simp [bitEvents])

/-- Both frames start with a bit. -/
theorem writeRamFrame_head (cfg : Config) (bytes : List Byte) :
    ∃ b rest, writeRamFrame cfg bytes = bitEvents cfg b ++ rest ∧ Sent cfg rest :=
  ⟨(cfg.idWr.setWidth 8).getLsbD 2,
    [(cfg.idWr.setWidth 8).getLsbD 1, (cfg.idWr.setWidth 8).getLsbD 0].flatMap (bitEvents cfg)
      ++ writeBitsEvents cfg 0 7 ++ bytes.flatMap (byteEvents cfg),
    by simp [writeRamFrame, writeBitsEvents],
    ((Sent.flatMap (sent_bitEvents cfg) _).append (sent_writeBits _ _ _)).append
      (.flatMap (fun _ => (sent_writeBits _ _ _).append (sent_writeBits _ _ _)) _)⟩

theorem commandFrame_head (cfg : Config) (codes : List Byte) :
    ∃ b rest, commandFrame cfg codes = bitEvents cfg b ++ rest ∧ Sent cfg rest :=
  ⟨(cfg.idCmd.setWidth 8).getLsbD 2,
    [(cfg.idCmd.setWidth 8).getLsbD 1, (cfg.idCmd.setWidth 8).getLsbD 0].flatMap (bitEvents cfg)
      ++ codes.flatMap fun c => writeBitsEvents cfg c 8 ++ padEvents cfg,
    by simp [commandFrame, writeBitsEvents],
    (Sent.flatMap (sent_bitEvents cfg) _).append (.flatMap (fun _ => (sent_writeBits _ _ _).append (sent_pad _)) _)⟩

/-! ## What a chip receives -/

theorem receivedLevels_append (i : Fin 4) (ps : Pins) (es fs : List Event) :
    receivedLevels i ps (es ++ fs) = receivedLevels i ps es ++ receivedLevels i (ps.run es) fs := by
  induction es generalizing ps with
  | nil => rfl
  | cons e es ih => simp only [List.cons_append, receivedLevels, ih, List.append_assoc, Pins.run_cons]

/-- Events that do not raise WR strobe nothing. -/
theorem receivedLevels_of_no_rise (i : Fin 4) (ps : Pins) {es : List Event} (h : Event.set .wr true ∉ es) :
    receivedLevels i ps es = [] := by
  induction es generalizing ps with
  | nil => rfl
  | cons e es ih =>
    simp only [List.mem_cons, not_or] at h
    simp only [receivedLevels, ih _ h.2, Ne.symm h.1, false_and, if_false, List.append_nil]

/-- Driving chip-selects strobes nothing. -/
theorem receivedLevels_selectLines (i : Fin 4) (ps : Pins) (cfg : Config) (mask : Byte) :
    receivedLevels i ps (selectLines cfg mask) = [] :=
  receivedLevels_of_no_rise i ps (by simp [selectLines])

/-- A selected chip receives whole bits, any other receives nothing (R70). -/
theorem receivedLevels_bits (i : Fin 4) (ps : Pins) (cfg : Config) (bs : List Bool) (h : (ps.get .wr).level = .low) :
    receivedLevels i ps (bs.flatMap (bitEvents cfg)) = if ps.selected i then bs.map Level.ofBool else [] := by
  induction bs generalizing ps with
  | nil => simp [receivedLevels]
  | cons b bs ih =>
    have hsel : ∀ qs : Pins, qs.selected i = ((qs.get (.csN i)).level == .low) := fun _ => rfl
    have hwr : (ps.apply (.set .data b)).wr.level = .low := by
      have : ((ps.apply (.set .data b)).get .wr).level = .low := by simp [h]
      exact this
    have hdata : (ps.apply (.set .data b)).data.level = Level.ofBool b := by
      have : ((ps.apply (.set .data b)).get .data).level = Level.ofBool b := by simp
      exact this
    have hkept : (ps.apply (.set .data b)).selected i = ps.selected i := by simp [hsel]
    rw [List.flatMap_cons, receivedLevels_append, ih _ (by simp [bitEvents]),
      show (ps.run (bitEvents cfg b)).selected i = ps.selected i by simp [hsel, bitEvents]]
    simp only [bitEvents, receivedLevels, Pins.apply_wait, hwr, hdata, hkept]
    cases ps.selected i <;> simp

end Sys2Proof.Machine
end

