-- ==== Sys2Proof/Laws/Exec.lean ====
section
/-! SUPPORT. What an operation can do, said once: the equation of INIT, and the inversion of `exec` and of `step`. -/

namespace Sys2Proof.Machine

/-! ## INIT -/

/-- The events of INIT (R82) where it renders an all-zero buffer. -/
def initEvents (cfg : Config) : List Event :=
  initPinEvents cfg ++ broadcastEvents cfg ++
    (List.range cfg.numChips).flatMap fun k =>
      transaction cfg (chipMask k) (writeRamFrame cfg (List.replicate cfg.bufferBytes 0))

/-- The state INIT leaves (R82). -/
def State.initialized (s : State) : State where
  cfg := s.cfg
  pins := s.pins.run (initEvents s.cfg)
  activeTarget := 0
  activeChannel := 0
  status := statusInitDone s.status
  result := s.result
  fb := Memory.writeAll 0 (List.range s.cfg.bufferBytes) s.fb
  trace := s.trace ++ initEvents s.cfg
  pending := s.pending

/-- A render of a buffer that reads 0 everywhere. -/
theorem renderTo_zero {s : State} (h : ∀ a < s.cfg.bufferBytes, Memory.read a s.fb = some 0) (k : Nat) :
    renderTo k s
      = .next (s.emit (transaction s.cfg (chipMask k) (writeRamFrame s.cfg (List.replicate s.cfg.bufferBytes 0)))) := by
  have hmap : (List.range s.cfg.bufferBytes).map (fun _ => (0 : Byte)) = List.replicate s.cfg.bufferBytes 0 := by
    simp [List.map_const']
  rw [renderTo, readBuffer_of_reads h, hmap, andThen_next]

/-- The renders of phase 4 (R82), one after another. -/
theorem renderAll_zero (ks : List Nat) {s : State} (h : ∀ a < s.cfg.bufferBytes, Memory.read a s.fb = some 0) :
    forEach renderTo ks s = .next (s.emit (ks.flatMap fun k =>
      transaction s.cfg (chipMask k) (writeRamFrame s.cfg (List.replicate s.cfg.bufferBytes 0)))) := by
  induction ks generalizing s with
  | nil => simp [State.emit]
  | cons k ks ih =>
    rw [forEach_cons, renderTo_zero h, andThen_next]
    refine (ih ?_).trans ?_
    · exact h
    · simp [State.emit, Pins.run_append]

/-- INIT always completes (R82). -/
theorem initSequence_next (s : State) : initSequence s = .next s.initialized := by
  have hz : ∀ a < s.cfg.bufferBytes, Memory.read a (Memory.writeAll 0 (List.range s.cfg.bufferBytes) s.fb) = some 0 :=
    fun a ha => Memory.read_writeAll_mem 0 (List.mem_range.mpr ha) s.fb
  rw [initSequence, zeroBuffer_next, andThen_next]
  refine (congrArg (andThen · _) (renderAll_zero _ ?_)).trans ?_
  · exact hz
  · simp only [andThen_next]
    simp [State.emit, State.initialized, initEvents, Pins.run_append]

/-! ## Inversion -/

/-- The operations that write the frame buffer, INIT apart (R25). -/
def writesBuffer : Instr → Bool
  | .init => false
  | .select _ => false
  | .writeBits _ _ => false
  | .writeSingleBit => false
  | .setPixel _ _ => true
  | .clearPixel _ _ => true
  | .writePixel _ _ _ => true
  | .setColumn _ _ => true
  | .fill => true
  | .clear => true
  | .render => false
  | .setBrightness _ _ => false
  | .selectTarget _ => false
  | .selectChannel _ => false
  | .getPixel _ _ => false

/-- The operations that drive pins, INIT apart (R25, R66). -/
def drivesWire : Instr → Bool
  | .init => false
  | .select _ => true
  | .writeBits _ _ => true
  | .writeSingleBit => true
  | .setPixel _ _ => false
  | .clearPixel _ _ => false
  | .writePixel _ _ _ => false
  | .setColumn _ _ => false
  | .fill => false
  | .clear => false
  | .render => true
  | .setBrightness _ _ => true
  | .selectTarget _ => false
  | .selectChannel _ => false
  | .getPixel _ _ => false

/-- The one fault an operation raises in a state, if it raises one (R91, R92). -/
inductive Raises (s : State) : Instr → Cause → Prop where
  | notInitialized {i : Instr} (hne : i ≠ .init) (hi : s.initDone = false) : Raises s i .notInitialized
  | reinit (hi : s.initDone = true) : Raises s .init .reinit
  | badBitCount (v n : Byte) (hi : s.initDone = true) (hn : 8 < n.toNat) : Raises s (.writeBits v n) .badBitCount

/-- What an operation that passes the checks of R92 can do to the state. -/
inductive Effect : Instr → State → State → Prop where
  /-- The frame buffer only (R66), which lists the same addresses if it listed every byte. -/
  | buffer {i : Instr} {s : State} (m : Memory) (hi : writesBuffer i = true)
      (hm : s.fb.map Prod.fst = List.range s.cfg.bufferBytes → m.map Prod.fst = List.range s.cfg.bufferBytes) :
      Effect i s { s with fb := m }
  /-- RESULT only, one bit (R61). -/
  | result {s : State} (x y r : Byte) (hr : r.toNat < 2) : Effect (.getPixel x y) s { s with result := r }
  /-- `ACTIVE_CHANNEL` only, a channel that exists (R65). -/
  | channel {s : State} (c : Byte) (hc : c.toNat < s.cfg.channelCount) :
      Effect (.selectChannel c) s { s with activeChannel := c }
  /-- Nothing, for a channel that does not exist (R65). -/
  | noChannel {s : State} (c : Byte) (hc : s.cfg.channelCount ≤ c.toNat) : Effect (.selectChannel c) s s
  /-- `ACTIVE_TARGET` only (R79). -/
  | target {s : State} (k : Byte) : Effect (.selectTarget k) s { s with activeTarget := k }
  /-- Events on the wire, and no other change. -/
  | wire {i : Instr} {s : State} (es : List Event) (hs : Sent s.cfg es) (hi : drivesWire i = true) : Effect i s (s.emit es)

/-- No effect writes STATUS. -/
theorem Effect.status {i : Instr} {s t : State} (h : Effect i s t) : t.status = s.status := by
  cases h <;> rfl

/-- An effect is on the wire alone, or moves no pin and appends no event. -/
theorem Effect.wire_or_quiet {i : Instr} {s t : State} (h : Effect i s t) :
    (drivesWire i = true ∧ ∃ es, Sent s.cfg es ∧ t = s.emit es) ∨ (t.pins = s.pins ∧ t.trace = s.trace) := by
  cases h with
  | wire es hs hi => exact .inl ⟨hi, es, hs, rfl⟩
  | _ => exact .inr ⟨rfl, rfl⟩

/-- No effect changes the configuration or takes an input. -/
theorem Effect.cfg {i : Instr} {s t : State} (h : Effect i s t) : t.cfg = s.cfg := by
  cases h <;> rfl
theorem Effect.pending {i : Instr} {s t : State} (h : Effect i s t) : t.pending = s.pending := by
  cases h <;> rfl

@[simp] theorem initialized_initDone (s : State) : s.initialized.initDone = true := statusInitDone_initDone _
@[simp] theorem initialized_faulted (s : State) : s.initialized.faulted = s.faulted := statusInitDone_faulted _
@[simp] theorem initialized_causeCode (s : State) : s.initialized.causeCode = s.causeCode := statusInitDone_causeCode _
@[simp] theorem initialized_statusReserved (s : State) : s.initialized.statusReserved = s.statusReserved :=
  statusInitDone_reserved _

/-- The first INIT of a clean block (R82). -/
theorem exec_init {s : State} (hw : s.cfg.wellFormed = true) (hf : s.faulted = false) (hi : s.initDone = false) :
    exec .init s = .next s.initialized := by
  simp only [exec, execInit, onceOnly_first hw hf hi, initSequence_next]

/-- A loop of pixel operations changes at most the frame buffer, and lists the same addresses. -/
theorem forEach_plotPixel {on : Nat → Bool} {x : Byte} {y : Nat → Byte} {ys : List Nat} {s t : State}
    (h : forEach (fun k => plotPixel (on k) x (y k)) ys s = .next t) :
    ∃ m, t = { s with fb := m } ∧
      (Memory.wf s.fb = true → Memory.wf m = true ∧ m.map Prod.fst = s.fb.map Prod.fst) := by
  refine forEach_keeps (P := fun t => ∃ m, t = { s with fb := m } ∧
      (Memory.wf s.fb = true → Memory.wf m = true ∧ m.map Prod.fst = s.fb.map Prod.fst)) ?_ ⟨s.fb, rfl, fun h => ⟨h, rfl⟩⟩ h
  rintro k u v ⟨m, rfl, hm⟩ huv
  obtain rfl | ⟨a, b, ha, rfl⟩ := plotPixel_eq_next huv
  · exact ⟨m, rfl, hm⟩
  · refine ⟨_, rfl, fun hw => ?_⟩
    obtain ⟨hw', hk⟩ := hm hw
    exact ⟨Memory.wf_write _ _ hw', (Memory.keys_write hw' (Memory.read_isSome.mp ha)).trans hk⟩

theorem plotPixel_buffer {on : Bool} {x y : Byte} {s t : State} (h : plotPixel on x y s = .next t) :
    ∃ m, t = { s with fb := m } ∧
      (s.fb.map Prod.fst = List.range s.cfg.bufferBytes → m.map Prod.fst = List.range s.cfg.bufferBytes) := by
  obtain rfl | ⟨a, v, ha, rfl⟩ := plotPixel_eq_next h
  · exact ⟨_, rfl, id⟩
  · refine ⟨_, rfl, fun hk => ?_⟩
    rw [Memory.keys_write (Memory.wf_of_keys_range hk) (Memory.read_isSome.mp ha), hk]

theorem plotColumn_buffer {p b : Byte} {s t : State} (h : plotColumn p b s = .next t) :
    ∃ m, t = { s with fb := m } ∧
      (s.fb.map Prod.fst = List.range s.cfg.bufferBytes → m.map Prod.fst = List.range s.cfg.bufferBytes) := by
  unfold plotColumn at h
  split at h
  · simp only [Host.Outcome.next.injEq] at h
    exact ⟨s.fb, h.symm, id⟩
  · obtain ⟨m, rfl, hm⟩ := forEach_plotPixel h
    exact ⟨m, rfl, fun hk => (hm (Memory.wf_of_keys_range hk)).2.trans hk⟩

theorem fillChannel_buffer {v : Byte} {c : Nat} {s t : State} (hw : s.cfg.wellFormed = true)
    (h : fillChannel v c s = .next t) :
    ∃ m, t = { s with fb := m } ∧
      (s.fb.map Prod.fst = List.range s.cfg.bufferBytes → m.map Prod.fst = List.range s.cfg.bufferBytes) := by
  obtain ⟨-, -, -, -, h5, -⟩ := wellFormed_bounds hw
  obtain ⟨hc, rfl⟩ := (fillChannel_eq_next (by rw [len_eq_outputSize hw]; omega)).mp h
  refine ⟨_, rfl, fun hk => ?_⟩
  rw [Memory.keys_writeAll (Memory.wf_of_keys_range hk), hk]
  intro a ha
  obtain ⟨i, hi, rfl⟩ := List.mem_map.mp ha
  rw [hk, List.mem_range]
  exact fbAddr_lt hc (List.mem_range.mp hi)

theorem zeroBuffer_buffer {s t : State} (h : zeroBuffer s = .next t) :
    ∃ m, t = { s with fb := m } ∧
      (s.fb.map Prod.fst = List.range s.cfg.bufferBytes → m.map Prod.fst = List.range s.cfg.bufferBytes) := by
  rw [zeroBuffer_next, Host.Outcome.next.injEq] at h
  refine ⟨_, h.symm, fun hk => ?_⟩
  rw [Memory.keys_writeAll (Memory.wf_of_keys_range hk), hk]
  intro a ha
  rw [hk]
  exact ha

theorem readPixel_result {x y : Byte} {s t : State} (h : readPixel x y s = .next t) :
    ∃ r : Byte, r.toNat < 2 ∧ t = { s with result := r } := by
  unfold readPixel at h
  split at h
  · simp only [Host.Outcome.next.injEq] at h
    exact ⟨0, by decide, h.symm⟩
  · obtain ⟨b, -, h⟩ := andThen_eq_next.mp h
    simp only [Host.Outcome.next.injEq] at h
    refine ⟨_, ?_, h.symm⟩
    rw [BitVec.toNat_and]
    exact Nat.lt_of_le_of_lt Nat.and_le_right (by decide)

/-- Everything an operation other than INIT can do once it passes the checks. -/
theorem exec_running {i : Instr} {s t : State} (hw : s.cfg.wellFormed = true) (hf : s.faulted = false)
    (hi : s.initDone = true) (h : exec i s = .next t) :
    (∃ c, Raises s i c ∧ t = s.raiseFault c) ∨ Effect i s t := by
  cases i with
  | init => exact .inl ⟨.reinit, .reinit hi, by simpa [exec, execInit, onceOnly_again hw hf hi] using h.symm⟩
  | select mask =>
    simp only [exec, execSelect, afterInit_running hw hf hi, Host.Outcome.next.injEq] at h
    exact .inr (h ▸ .wire _ (sent_selectLines _ _) rfl)
  | writeBits v c =>
    simp only [exec, execWriteBits, afterInit_running hw hf hi] at h
    split at h <;> simp only [Host.Outcome.next.injEq] at h
    · exact .inl ⟨_, .badBitCount v c hi (by assumption), h.symm⟩
    · exact .inr (h ▸ .wire _ (sent_writeBits _ _ _) rfl)
  | writeSingleBit =>
    simp only [exec, execWriteSingleBit, afterInit_running hw hf hi, Host.Outcome.next.injEq] at h
    exact .inr (h ▸ .wire _ (sent_pad _) rfl)
  | setPixel x y =>
    simp only [exec, execSetPixel, afterInit_running hw hf hi] at h
    obtain ⟨m, rfl, hm⟩ := plotPixel_buffer h
    exact .inr (.buffer m rfl hm)
  | clearPixel x y =>
    simp only [exec, execClearPixel, afterInit_running hw hf hi] at h
    obtain ⟨m, rfl, hm⟩ := plotPixel_buffer h
    exact .inr (.buffer m rfl hm)
  | writePixel x y v =>
    simp only [exec, execWritePixel, afterInit_running hw hf hi] at h
    obtain ⟨m, rfl, hm⟩ := plotPixel_buffer h
    exact .inr (.buffer m rfl hm)
  | setColumn p b =>
    simp only [exec, execSetColumn, afterInit_running hw hf hi] at h
    obtain ⟨m, rfl, hm⟩ := plotColumn_buffer h
    exact .inr (.buffer m rfl hm)
  | fill =>
    simp only [exec, execFill, afterInit_running hw hf hi] at h
    obtain ⟨m, rfl, hm⟩ := fillChannel_buffer hw h
    exact .inr (.buffer m rfl hm)
  | clear =>
    simp only [exec, execClear, afterInit_running hw hf hi] at h
    obtain ⟨m, rfl, hm⟩ := zeroBuffer_buffer h
    exact .inr (.buffer m rfl hm)
  | render =>
    simp only [exec, execRender, afterInit_running hw hf hi] at h
    split at h
    · simp only [Host.Outcome.next.injEq] at h
      have : t = s.emit [] := by simp [← h, State.emit]
      exact .inr (this ▸ .wire _ .nil rfl)
    · obtain ⟨bytes, rfl⟩ := renderTo_eq_next h
      exact .inr (.wire _ (sent_transaction _ (sent_writeRamFrame _ _)) rfl)
  | setBrightness l mask =>
    simp only [exec, execSetBrightness, afterInit_running hw hf hi] at h
    split at h <;> simp only [Host.Outcome.next.injEq] at h
    · have : t = s.emit [] := by simp [← h, State.emit]
      exact .inr (this ▸ .wire _ .nil rfl)
    · exact .inr (h ▸ .wire _ (sent_transaction _ (sent_commandFrame _ _)) rfl)
  | selectTarget k =>
    simp only [exec, execSelectTarget, afterInit_running hw hf hi, Host.Outcome.next.injEq] at h
    exact .inr (h ▸ .target k)
  | selectChannel c =>
    simp only [exec, execSelectChannel, afterInit_running hw hf hi] at h
    split at h <;> simp only [Host.Outcome.next.injEq] at h
    · exact .inr (h ▸ .noChannel c (by assumption))
    · exact .inr (h ▸ .channel c (by omega))
  | getPixel x y =>
    simp only [exec, execGetPixel, afterInit_running hw hf hi] at h
    obtain ⟨r, hr, rfl⟩ := readPixel_result h
    exact .inr (.result x y r hr)

/-- Every operation but INIT makes the common checks of R92 first. -/
theorem exec_afterInit {i : Instr} (h : i ≠ .init) : ∃ body, ∀ s, exec i s = afterInit body s := by
  cases i with
  | init => exact absurd rfl h
  | _ => exact ⟨_, fun _ => rfl⟩

/-- Everything `exec` can answer as a next state (R92 to R94). -/
theorem exec_next {i : Instr} {s t : State} (h : exec i s = .next t) :
    s.cfg.wellFormed = true ∧
      ((s.faulted = true ∧ t = s)
        ∨ (s.faulted = false ∧ ∃ c, Raises s i c ∧ t = s.raiseFault c)
        ∨ (s.faulted = false ∧ s.initDone = false ∧ i = .init ∧ t = s.initialized)
        ∨ (s.faulted = false ∧ s.initDone = true ∧ Effect i s t)) := by
  have hmain : s.cfg.wellFormed = true ∧ (s.faulted = true → t = s) ∧
      (s.faulted = false → s.initDone = false →
        (∃ c, Raises s i c ∧ t = s.raiseFault c) ∨ (i = .init ∧ t = s.initialized)) := by
    by_cases hinit : i = .init
    · subst hinit
      obtain ⟨hw, ⟨hf, rfl⟩ | ⟨hf, hi, rfl⟩ | ⟨hf, hi, hb⟩⟩ := onceOnly_next h
      · simp [hw, hf]
      · simp [hw, hf, hi]
      · rw [initSequence_next, Host.Outcome.next.injEq] at hb
        simp [hw, hf, hb]
    · obtain ⟨body, hbody⟩ := exec_afterInit hinit
      rw [hbody] at h
      obtain ⟨hw, ⟨hf, rfl⟩ | ⟨hf, hi, rfl⟩ | ⟨hf, hi, -⟩⟩ := afterInit_next h
      · simp [hw, hf]
      · exact ⟨hw, by simp [hf], fun _ _ => .inl ⟨_, .notInitialized hinit hi, rfl⟩⟩
      · simp [hw, hf, hi]
  obtain ⟨hw, hhalt, hearly⟩ := hmain
  refine ⟨hw, ?_⟩
  cases hf : s.faulted with
  | true => exact .inl ⟨rfl, hhalt hf⟩
  | false =>
    cases hi : s.initDone with
    | false =>
      obtain hc | ⟨rfl, ht⟩ := hearly hf hi
      · exact .inr (.inl ⟨rfl, hc⟩)
      · exact .inr (.inr (.inl ⟨rfl, rfl, rfl, ht⟩))
    | true =>
      obtain hc | he := exec_running hw hf hi h
      · exact .inr (.inl ⟨rfl, hc⟩)
      · exact .inr (.inr (.inr ⟨rfl, rfl, he⟩))

/-- A clean block runs the operation a word decodes to (R92). -/
theorem executeWord_ok {w : OpWord} {i : Instr} {s : State} (hw : s.cfg.wellFormed = true) (hf : s.faulted = false)
    (hd : decode w = .ok i) : executeWord w s = exec i s := by
  simp [executeWord, unlessHalted_clean hw hf, hd]

/-- A clean block raises `ILLEGAL_OP` for a word that does not decode (R92). -/
theorem executeWord_error {w : OpWord} {r : DecodeError} {s : State} (hw : s.cfg.wellFormed = true)
    (hf : s.faulted = false) (hd : decode w = .error r) : executeWord w s = .next (s.raiseFault .illegalOp) := by
  simp [executeWord, unlessHalted_clean hw hf, hd]

/-- Everything the block can do with a word (R92). -/
theorem executeWord_next {w : OpWord} {s t : State} (h : executeWord w s = .next t) :
    s.cfg.wellFormed = true ∧
      ((s.faulted = true ∧ t = s)
        ∨ (s.faulted = false ∧ (∃ r, decode w = .error r) ∧ t = s.raiseFault .illegalOp)
        ∨ (s.faulted = false ∧ ∃ i, decode w = .ok i ∧ exec i s = .next t)) := by
  cases hw : s.cfg.wellFormed with
  | false => simp [executeWord, unlessHalted_illFormed hw] at h
  | true =>
    cases hf : s.faulted with
    | true => simp_all [executeWord, unlessHalted_halted hw hf]
    | false =>
      simp only [executeWord, unlessHalted_clean hw hf] at h
      refine ⟨rfl, .inr ?_⟩
      cases hd : decode w with
      | error r => simp_all
      | ok i => exact .inr ⟨rfl, i, rfl, by simpa [hd] using h⟩

/-- Everything a step can do (R6, R103). -/
theorem step_next {s t : State} (h : step s = .next t) :
    s.cfg.wellFormed = true ∧
      ((s.pending = [] ∧ t = s)
        ∨ (∃ rest, s.pending = .reset :: rest ∧ t = { s with pending := rest }.assertReset)
        ∨ (∃ w rest, s.pending = .word w :: rest ∧ executeWord w { s with pending := rest } = .next t)) := by
  unfold step acceptNext at h
  split at h
  · rename_i hw
    refine ⟨hw, ?_⟩
    split at h
    · rename_i hp
      simp only [Host.Outcome.next.injEq] at h
      exact .inl ⟨hp, h.symm⟩
    · rename_i input rest hp
      cases input with
      | reset =>
        simp only [acceptInput, Host.Outcome.next.injEq] at h
        exact .inr (.inl ⟨rest, hp, h.symm⟩)
      | word w => exact .inr (.inr ⟨w, rest, hp, h⟩)
  · simp at h

end Sys2Proof.Machine
end

