-- ==== Sys2Proof/Laws/PerInstr.lean ====
section
/-! SUPPORT. Laws of operations as syntax, one lemma per constructor: the word of an operation matches the operation's row
of the opcode map (spec/30_encoding.md R45). -/

namespace Sys2Proof.Laws

/-- The row of R45: match and mask. -/
def rowOf : Instr → OpWord × OpWord
  | .init => (0x10000000, 0xFFFFFFFF)
  | .select _ => (0x20000000, 0xFF00FFFF)
  | .writeBits _ _ => (0x30000000, 0xFF0000FF)
  | .writeSingleBit => (0x40000000, 0xFFFFFFFF)
  | .setPixel _ _ => (0x50000000, 0xFF0000FF)
  | .clearPixel _ _ => (0x60000000, 0xFF0000FF)
  | .writePixel _ _ _ => (0x70000000, 0xFF000000)
  | .setColumn _ _ => (0x80000000, 0xFF0000FF)
  | .fill => (0x90000000, 0xFFFFFFFF)
  | .clear => (0xA0000000, 0xFFFFFFFF)
  | .render => (0xB0000000, 0xFFFFFFFF)
  | .setBrightness _ _ => (0xC0000000, 0xFF0000FF)
  | .selectTarget _ => (0xD0000000, 0xFF00FFFF)
  | .selectChannel _ => (0xE0000000, 0xFF00FFFF)
  | .getPixel _ _ => (0xF0000000, 0xFF0000FF)

/-- A word of three operands matches a row that masks none of them. -/
theorem matches_of_fields {op : BitVec 4} {a b c : Byte} (m k : OpWord)
    (ho : op &&& fieldOp k = fieldOp m ∧ fieldReserved m = 0) (ha : a &&& fieldA k = fieldA m)
    (hb : b &&& fieldB k = fieldB m) (hc : c &&& fieldC k = fieldC m) : wordOf op a b c &&& k = m := by
  rw [masked_eq_iff, fieldOp_wordOf, fieldReserved_wordOf, fieldA_wordOf, fieldB_wordOf, fieldC_wordOf, ho.2]
  exact ⟨ho.1, by simp, ha, hb, hc⟩

/-- A field that the mask leaves out. -/
theorem unmasked (a : Byte) {k m : Byte} (h : k = 0 ∧ m = 0) : a &&& k = m := by simp [h]

/-- The word of the operation matches its row of R45. -/
def EncodeMatchesRow.Statement (i : Instr) : Prop := encode i &&& (rowOf i).2 = (rowOf i).1

theorem EncodeMatchesRow.init : EncodeMatchesRow.Statement .init := by unfold EncodeMatchesRow.Statement; decide

theorem EncodeMatchesRow.select (mask : Byte) : EncodeMatchesRow.Statement (.select mask) :=
  matches_of_fields 0x20000000 0xFF00FFFF (by decide) (unmasked mask (by decide)) (by decide) (by decide)

theorem EncodeMatchesRow.writeBits (value count : Byte) : EncodeMatchesRow.Statement (.writeBits value count) :=
  matches_of_fields 0x30000000 0xFF0000FF (by decide) (unmasked value (by decide)) (unmasked count (by decide)) (by decide)

theorem EncodeMatchesRow.writeSingleBit : EncodeMatchesRow.Statement .writeSingleBit := by
  unfold EncodeMatchesRow.Statement; decide

theorem EncodeMatchesRow.setPixel (x y : Byte) : EncodeMatchesRow.Statement (.setPixel x y) :=
  matches_of_fields 0x50000000 0xFF0000FF (by decide) (unmasked x (by decide)) (unmasked y (by decide)) (by decide)

theorem EncodeMatchesRow.clearPixel (x y : Byte) : EncodeMatchesRow.Statement (.clearPixel x y) :=
  matches_of_fields 0x60000000 0xFF0000FF (by decide) (unmasked x (by decide)) (unmasked y (by decide)) (by decide)

theorem EncodeMatchesRow.writePixel (x y value : Byte) : EncodeMatchesRow.Statement (.writePixel x y value) :=
  matches_of_fields 0x70000000 0xFF000000 (by decide) (unmasked x (by decide)) (unmasked y (by decide)) (unmasked value (by decide))

theorem EncodeMatchesRow.setColumn (position byteValue : Byte) :
    EncodeMatchesRow.Statement (.setColumn position byteValue) :=
  matches_of_fields 0x80000000 0xFF0000FF (by decide) (unmasked position (by decide)) (unmasked byteValue (by decide)) (by decide)

theorem EncodeMatchesRow.fill : EncodeMatchesRow.Statement .fill := by unfold EncodeMatchesRow.Statement; decide

theorem EncodeMatchesRow.clear : EncodeMatchesRow.Statement .clear := by unfold EncodeMatchesRow.Statement; decide

theorem EncodeMatchesRow.render : EncodeMatchesRow.Statement .render := by unfold EncodeMatchesRow.Statement; decide

theorem EncodeMatchesRow.setBrightness (level selectionMask : Byte) :
    EncodeMatchesRow.Statement (.setBrightness level selectionMask) :=
  matches_of_fields 0xC0000000 0xFF0000FF (by decide) (unmasked level (by decide)) (unmasked selectionMask (by decide)) (by decide)

theorem EncodeMatchesRow.selectTarget (target : Byte) : EncodeMatchesRow.Statement (.selectTarget target) :=
  matches_of_fields 0xD0000000 0xFF00FFFF (by decide) (unmasked target (by decide)) (by decide) (by decide)

theorem EncodeMatchesRow.selectChannel (channel : Byte) : EncodeMatchesRow.Statement (.selectChannel channel) :=
  matches_of_fields 0xE0000000 0xFF00FFFF (by decide) (unmasked channel (by decide)) (by decide) (by decide)

theorem EncodeMatchesRow.getPixel (x y : Byte) : EncodeMatchesRow.Statement (.getPixel x y) :=
  matches_of_fields 0xF0000000 0xFF0000FF (by decide) (unmasked x (by decide)) (unmasked y (by decide)) (by decide)

end Sys2Proof.Laws
end

