-- ==== Sys2Proof/Tests/Slice0.lean ====
section
/-! SUPPORT. Tests: ill-formed configurations that the check refuses, words written out from spec/30_encoding.md, vectors of
spec/95_test_vectors.md, and a witness for the hypotheses of every statement that has any. -/

namespace Sys2Proof.Tests

open Sys2Proof Sys2Proof.Machine Sys2Proof.Statement

/-! ## Helpers -/

/-- A configuration with the default parameters and `CMD_COM = 0x20`, as spec/95_test_vectors.md uses. -/
def board (numChips outputSize channelCount : Nat) : Config := Config.withDefaults numChips outputSize channelCount 0x20 0 false

/-- Events that bring the pins where INIT leaves them: phase 1 of R82 and one bit 0. -/
def powerUp (cfg : Config) : List Event := initPinEvents cfg ++ bitEvents cfg false

/-- A block that runs, with this frame buffer. -/
def block (cfg : Config) (bytes : List Byte) : State where
  cfg := cfg
  pins := Pins.reset.run (powerUp cfg)
  activeTarget := 0
  activeChannel := 0
  status := 0x01
  result := 0
  fb := (List.range bytes.length).zip bytes
  trace := powerUp cfg
  pending := []

/-- A block that runs, with every byte of its buffer at one value. -/
def blockOf (numChips outputSize channelCount : Nat) (v : Byte) : State :=
  block (board numChips outputSize channelCount) (List.replicate (channelCount * outputSize) v)

/-- What an operation leaves, seen through `f`. -/
def after {α : Type} (i : Instr) (s : State) (f : State → α) : Option α :=
  match exec i s with
  | .next t => some (f t)
  | _ => none

/-- What a word leaves, seen through `f`. -/
def afterWord {α : Type} (w : OpWord) (s : State) (f : State → α) : Option α :=
  match executeWord w s with
  | .next t => some (f t)
  | _ => none

/-- The levels of DATA that an operation sends from a block of `block`. -/
def sent (i : Instr) (s : State) : Option (List Bool) := after i s fun t => dataLevels (t.trace.drop s.trace.length)

/-- The bytes of a channel. -/
def bytesOf (c : Nat) (s : State) : List (Option Byte) := (List.range s.cfg.len).map (s.byteAt c)

/-! ## WellFormed: each check refuses a term that breaks it (R9, R8) -/

theorem test_wf_good : (board 1 8 1).wellFormed = true ∧ (board 4 64 1).wellFormed = true ∧ (board 2 8 8).wellFormed = true := by
  decide
theorem test_wf_no_chip : (board 0 8 1).wellFormed = false := by decide
theorem test_wf_five_chips : (board 5 8 1).wellFormed = false := by decide
theorem test_wf_sixteen_rows : { board 1 8 1 with commonSize := 16 }.wellFormed = false := by decide
theorem test_wf_twelve_columns : (board 1 12 1).wellFormed = false := by decide
theorem test_wf_no_column : (board 1 0 1).wellFormed = false := by decide
theorem test_wf_too_many_columns : (board 1 72 1).wellFormed = false := by decide
theorem test_wf_no_channel : (board 1 8 0).wellFormed = false := by decide
theorem test_wf_buffer_too_long : (board 1 8 9).wellFormed = false ∧ (board 1 64 2).wellFormed = false := by decide
theorem test_wf_pwm_level_zero : { board 1 8 1 with defaultPwmLevel := 0 }.wellFormed = false := by decide
theorem test_wf_pwm_level_seventeen : { board 1 8 1 with defaultPwmLevel := 17 }.wellFormed = false := by decide
theorem test_wf_pwm_base_low_bits : { board 1 8 1 with cmdPwmBase := 0xA1 }.wellFormed = false := by decide
theorem test_wf_sentinel_names_a_line : { board 1 8 1 with currentTarget := 0x18 }.wellFormed = false := by decide

/-! ## Decoding: words written out from R43 and R45 -/

theorem test_decode_init : decode 0b00010000000000000000000000000000 = .ok .init := by rfl
theorem test_decode_select : decode 0b00100000000001010000000000000000 = .ok (.select 5) := by rfl
theorem test_decode_writeBits : decode 0b00110000000001010000001100000000 = .ok (.writeBits 5 3) := by rfl
theorem test_decode_writeSingleBit : decode 0b01000000000000000000000000000000 = .ok .writeSingleBit := by rfl
theorem test_decode_setPixel : decode 0b01010000000111110000011100000000 = .ok (.setPixel 31 7) := by rfl
theorem test_decode_clearPixel : decode 0b01100000111111110000000100000000 = .ok (.clearPixel 255 1) := by rfl
theorem test_decode_writePixel : decode 0b01110000000000110000010110000000 = .ok (.writePixel 3 5 128) := by rfl
theorem test_decode_setColumn : decode 0b10000000000010011010010100000000 = .ok (.setColumn 9 0xA5) := by rfl
theorem test_decode_fill : decode 0b10010000000000000000000000000000 = .ok .fill := by rfl
theorem test_decode_clear : decode 0b10100000000000000000000000000000 = .ok .clear := by rfl
theorem test_decode_render : decode 0b10110000000000000000000000000000 = .ok .render := by rfl
theorem test_decode_setBrightness : decode 0b11000000000010000000001100000000 = .ok (.setBrightness 8 3) := by rfl
theorem test_decode_selectTarget : decode 0b11010000000001010000000000000000 = .ok (.selectTarget 5) := by rfl
theorem test_decode_selectChannel : decode 0b11100000000000010000000000000000 = .ok (.selectChannel 1) := by rfl
theorem test_decode_getPixel : decode 0b11110000000010010000001000000000 = .ok (.getPixel 9 2) := by rfl

/-- R46: each kind of illegal word, refused by name. -/
theorem test_decode_reserved_opcode : decode 0x00000000 = .error .reservedOpcode := by rfl
theorem test_decode_reserved_bits : decode 0x11000000 = .error .reservedBits ∧ decode 0x58000000 = .error .reservedBits := ⟨rfl, rfl⟩
theorem test_decode_unused_field : decode 0x50000001 = .error .unusedField ∧ decode 0xB0010000 = .error .unusedField ∧
    decode 0x20000100 = .error .unusedField := ⟨rfl, rfl, rfl⟩

theorem test_decodeTableWord : decodeTableWord 32 0x501F0700 = some (.setPixel 31 7) ∧ decodeTableWord 32 0 = none := ⟨rfl, rfl⟩

/-- The very next step after placing a word runs it, as the first word after reset too. -/
theorem test_withFetchWord : step (State.reset.withFetchWord 32 0x10000000) = exec .init State.reset := rfl

/-- R53: a numeral out of range, a missing operand and an extra operand are rejected. -/
theorem test_assembler_rejects : assembleLine (board 1 8 1) "SET_PIXEL 256, 0" = none ∧
    assembleLine (board 1 8 1) "SET_PIXEL 1" = none ∧ assembleLine (board 1 8 1) "FILL 0" = none := by decide

/-! ## The translator (spec/95_test_vectors.md 2.1) -/

theorem test_translate_valid : translatePixel (board 1 32 1) 20 3 = some ⟨19, 3, 0x08⟩ ∧
    translatePixel (board 1 32 1) 31 7 = some ⟨31, 0, 0x01⟩ ∧ translatePixel (board 1 64 1) 63 7 = some ⟨63, 0, 0x01⟩ := by decide
theorem test_translate_invalid : translatePixel (board 1 32 1) 32 0 = none ∧ translatePixel (board 1 32 1) 0 8 = none ∧
    translatePixel (board 1 32 1) 255 255 = none ∧ translatePixel (board 1 8 1) 8 0 = none := by decide

/-! ## Frame-buffer operations (spec/95_test_vectors.md 2.2) -/

theorem test_setPixel : after (.setPixel 7 0) (block (board 1 8 1) [0x80, 0, 0, 0, 0, 0, 0, 0]) (·.byteAt 0 0) = some (some 0x81) := by
  decide
theorem test_clearPixel : after (.clearPixel 0 0) (blockOf 1 8 1 0xFF) (bytesOf 0) =
    some [some 0x7F, some 0xFF, some 0xFF, some 0xFF, some 0xFF, some 0xFF, some 0xFF, some 0xFF] := by decide
theorem test_writePixel_on : after (.writePixel 3 5 0x80) (blockOf 1 8 1 0) (·.byteAt 0 5) = some (some 0x10) := by decide
theorem test_writePixel_off : after (.writePixel 3 5 0) (blockOf 1 8 1 0xFF) (·.byteAt 0 5) = some (some 0xEF) := by decide
theorem test_writePixel_out_of_range : after (.writePixel 8 0 1) (blockOf 1 8 1 0) id = some (blockOf 1 8 1 0) := by decide
theorem test_getPixel : after (.getPixel 1 0) (block (board 1 8 1) [0x40, 0, 0, 0, 0, 0, 0, 0]) (·.result) = some 0x01 := by decide
theorem test_getPixel_out_of_range : after (.getPixel 8 0) { blockOf 1 8 1 0xFF with result := 1 } (·.result) = some 0x00 := by decide
theorem test_setColumn : after (.setColumn 9 0xA5) (blockOf 1 16 1 0) (bytesOf 0) =
    some ((List.replicate 8 (some 0)) ++ [some 0x40, some 0, some 0x40, some 0, some 0, some 0x40, some 0, some 0x40]) := by decide
theorem test_setColumn_overwrites : after (.setColumn 0 0x01) (blockOf 1 8 1 0xFF) (bytesOf 0) =
    some (some 0xFF :: List.replicate 7 (some 0x7F)) := by decide
theorem test_fill : after .fill { blockOf 1 8 2 0 with activeChannel := 1 } (fun t => (bytesOf 0 t, bytesOf 1 t)) =
    some (List.replicate 8 (some 0), List.replicate 8 (some 0xFF)) := by decide
theorem test_clear : after .clear { blockOf 1 8 2 0xFF with activeChannel := 1 } (fun t => (bytesOf 0 t, bytesOf 1 t, t.activeChannel)) =
    some (List.replicate 8 (some 0), List.replicate 8 (some 0), 1) := by decide
theorem test_selectChannel : after (.selectChannel 1) (blockOf 1 8 2 0) (·.activeChannel) = some 1 ∧
    after (.selectChannel 1) (blockOf 1 8 1 0) (·.activeChannel) = some 0 := by decide

/-! ## The wire (spec/95_test_vectors.md 2.3 to 2.7) -/

theorem test_select : after (.select 0x0F) (blockOf 2 8 1 0) (fun t => t.trace.drop (powerUp (board 2 8 1)).length) =
    some [.set (.csN 0) false, .set (.csN 1) false] := by decide
theorem test_select_order : after (.select 0b0101) (blockOf 4 8 1 0) (fun t => t.trace.drop (powerUp (board 4 8 1)).length) =
    some [.set (.csN 0) false, .set (.csN 1) true, .set (.csN 2) false, .set (.csN 3) true] := by decide
theorem test_writeBits : after (.writeBits 0x05 3) (blockOf 1 8 1 0) (fun t => t.trace.drop (powerUp (board 1 8 1)).length) =
    some ([.set .data true, .wait 50, .set .wr true, .set .wr false] ++
      [.set .data false, .wait 50, .set .wr true, .set .wr false] ++
      [.set .data true, .wait 50, .set .wr true, .set .wr false]) := by decide
theorem test_writeBits_nine : after (.writeBits 0 9) (blockOf 1 8 1 0) (fun t => (t.status, t.trace.length)) =
    some (0x0F, (powerUp (board 1 8 1)).length) := by decide
theorem test_writeSingleBit : sent .writeSingleBit (blockOf 1 8 1 0) = some [false] := by decide
theorem test_setBrightness : sent (.setBrightness 8 0b11) (blockOf 2 8 1 0) =
    some [true, false, false, true, false, true, false, false, true, true, true, false] := by decide
theorem test_setBrightness_invalid_target : after (.setBrightness 16 0x10) { blockOf 2 8 1 0 with activeTarget := 2 } id =
    some { blockOf 2 8 1 0 with activeTarget := 2 } := by decide
theorem test_pwm_codes : pwmCode (board 1 8 1) (clampLevel 0) = 0xA0 ∧ pwmCode (board 1 8 1) (clampLevel 8) = 0xA7 ∧
    pwmCode (board 1 8 1) (clampLevel 16) = 0xAF ∧ pwmCode (board 1 8 1) (clampLevel 17) = 0xAF := by decide
theorem test_render : sent .render (block (board 1 8 1) [0x12, 0, 0, 0, 0, 0, 0, 0x80]) =
    some ([true, false, true] ++ List.replicate 7 false ++ [false, false, false, true, false, false, true, false] ++
      List.replicate 48 false ++ [true, false, false, false, false, false, false, false]) := by decide
theorem test_selectTarget : after (.selectTarget 5) (blockOf 2 8 1 0) (·.activeTarget) = some 5 := by decide
theorem test_init_length : after .init (State.resetWith (board 1 8 2)) (·.trace.length) = some 753 := by decide +kernel
theorem test_init_registers : after .init (State.resetWith (board 1 8 1)) (fun t => (t.status, t.pins.get .data, bytesOf 0 t)) =
    some (0x01, ⟨.output, .low⟩, List.replicate 8 (some 0)) := by decide +kernel

/-! ## Faults (spec/95_test_vectors.md 2.8) -/

theorem test_fault_not_initialized : afterWord 0x30000900 (State.resetWith (board 1 8 1)) (·.status) = some 0x0A := by decide
theorem test_fault_illegal_op : afterWord 0x11000000 (State.resetWith (board 1 8 1)) (·.status) = some 0x06 ∧
    afterWord 0xB0010000 (blockOf 1 8 1 0) (·.status) = some 0x07 := by decide
theorem test_fault_reinit : afterWord 0x10000000 (blockOf 1 8 1 0) (·.status) = some 0x13 := by decide
theorem test_fault_halts : afterWord 0xB0000000 { blockOf 1 8 1 0 with status := 0x0F } (fun t => (t.status, t.trace.length)) =
    some (0x0F, (powerUp (board 1 8 1)).length) := by decide

/-! ## Witnesses: states and operands that meet the hypotheses of each statement -/

/-- What a step leaves, seen through `f`. -/
def afterStep {α : Type} (s : State) (f : State → α) : Option α :=
  match step s with
  | .next t => some (f t)
  | _ => none

theorem exec_of_after {α : Type} {i : Instr} {s : State} {f : State → α} {x : α} (h : after i s f = some x) :
    ∃ t, exec i s = .next t ∧ f t = x := by
  unfold after at h
  split at h
  · exact ⟨_, by assumption, Option.some.inj h⟩
  · cases h

theorem executeWord_of_afterWord {α : Type} {w : OpWord} {s : State} {f : State → α} {x : α}
    (h : afterWord w s f = some x) : ∃ t, executeWord w s = .next t ∧ f t = x := by
  unfold afterWord at h
  split at h
  · exact ⟨_, by assumption, Option.some.inj h⟩
  · cases h

theorem step_of_afterStep {α : Type} {s : State} {f : State → α} {x : α} (h : afterStep s f = some x) :
    ∃ t, step s = .next t ∧ f t = x := by
  unfold afterStep at h
  split at h
  · exact ⟨_, by assumption, Option.some.inj h⟩
  · cases h

/-- A running block of two chips, eight columns and two channels, with chip 1 and channel 1 chosen. -/
def ready : State := { blockOf 2 8 2 0x5A with activeTarget := 1, activeChannel := 1 }

/-- A block before INIT. -/
def unstarted : State := State.resetWith (board 2 8 1)

/-- A halted block. -/
def halted : State := { blockOf 1 8 1 0 with status := 0x0F }

theorem witness_running : ready.Running := ⟨by decide, by decide, by decide⟩
theorem witness_ready : ready.Ready := ⟨witness_running, by decide, by decide⟩

theorem witness_inv : ready.Inv where
  config := by decide
  channel := by decide
  reserved := by decide
  noCause := by decide
  oneCause := by decide
  result := by decide
  pins := rfl
  fresh := by decide
  buffer := by decide
  lines := by decide
  strobe := by decide
  data := by decide
  untouched := by
    intro p hp
    cases p with
    | csN i => revert i; decide
    | wr => revert hp; decide
    | data => revert hp; decide
    | clk => rfl

theorem witness_EncodeDecodeRoundTrip : decode 0x501F0700 = .ok (.setPixel 31 7) := rfl
theorem witness_DecoderFollowsOpcodeMap : decode 0x501F0700 = .ok (.setPixel 31 7) ∧
    ("SET_PIXEL", 0x50000000, 0xFF0000FF) ∈ opcodeMap ∧ (0x501F0700 : OpWord) &&& 0xFF0000FF = 0x50000000 :=
  ⟨rfl, by decide, by decide⟩
theorem witness_IllegalWordRaisesIllegalOp : unstarted.cfg.wellFormed = true ∧ unstarted.faulted = false ∧ IllegalWord 0 ∧
    IllegalWord 0x11000000 ∧ IllegalWord 0x50000001 ∧ ¬ IllegalWord 0x70000001 := by
  unfold IllegalWord
  decide

/-- Each way a mnemonic and operands assemble: by mnemonic, with CURRENT, as DESELECT. -/
theorem witness_AssemblerFollowsOpcodeMap : assemble (board 1 8 1) "SET_PIXEL" [.num 1, .num 2] = some (.setPixel 1 2) ∧
    assemble (board 1 8 1) "SET_BRIGHTNESS" [.num 16, .current] = some (.setBrightness 16 0x10) ∧
    assemble (board 1 8 1) "DESELECT" [] = some (.select 0) := by decide

/-- Lists that R53 rejects: an operand missing, an operand too many, CURRENT where no mask stands. -/
theorem test_assemble_rejects_operands : assemble (board 1 8 1) "SET_PIXEL" [.num 1] = none ∧
    assemble (board 1 8 1) "SET_PIXEL" [.num 1, .num 2, .num 3] = none ∧ assemble (board 1 8 1) "FILL" [.num 0] = none ∧
    assemble (board 1 8 1) "DESELECT" [.num 0] = none ∧ assemble (board 1 8 1) "SET_PIXEL" [.num 1, .current] = none ∧
    assemble (board 1 8 1) "WRITE_PIXEL" [.num 1, .num 2] = none := by decide
theorem witness_StepRunsDecodedOperation : ∃ s : State, s.cfg.wellFormed = true ∧ s.faulted = false ∧
    s.pending = .word 0xB0000000 :: [.reset] ∧ decode 0xB0000000 = .ok .render :=
  ⟨{ ready with pending := [.word 0xB0000000, .reset] }, by decide, by decide, rfl, rfl⟩
theorem witness_StepWaitsForHost : ready.cfg.wellFormed = true ∧ ready.pending = [] := by decide
theorem witness_ResetInputRestoresResetColumn : ∃ s : State, s.cfg.wellFormed = true ∧ s.faulted = true ∧
    s.pending = .reset :: [.word 0x10000000] :=
  ⟨{ halted with pending := [.reset, .word 0x10000000] }, by decide, by decide, rfl⟩
theorem witness_IllFormedConfigurationRefused :
    ∀ cfg ∈ [board 0 8 1, board 5 8 1, { board 1 8 1 with commonSize := 16 }, board 1 9 1, board 1 0 1, board 1 72 1, board 1 8 0] ++
        [board 1 64 2],
      ¬ (1 ≤ (State.resetWith cfg).cfg.numChips ∧ (State.resetWith cfg).cfg.numChips ≤ 4 ∧
        (State.resetWith cfg).cfg.commonSize = 8 ∧ (State.resetWith cfg).cfg.outputSize % 8 = 0 ∧
        8 ≤ (State.resetWith cfg).cfg.outputSize ∧ (State.resetWith cfg).cfg.outputSize ≤ 64 ∧
        1 ≤ (State.resetWith cfg).cfg.channelCount ∧
        2 * (State.resetWith cfg).cfg.channelCount * (State.resetWith cfg).cfg.len ≤ 128) := by decide
theorem witness_FaultEntryIsPrecise : ready.faulted = false ∧ ∃ t, executeWord 0x10000000 ready = .next t ∧ t.faulted = true :=
  ⟨by decide, executeWord_of_afterWord (f := State.faulted) (by decide)⟩

/-- Each clause of R92's order: halted, illegal, second INIT, operation before INIT, count 9, and a word that passes with
count 8. -/
theorem witness_CheckOrder : halted.faulted = true ∧ halted.cfg.wellFormed = true ∧
    (ready.faulted = false ∧ ready.initDone = true ∧ ready.cfg.wellFormed = true) ∧
    (unstarted.faulted = false ∧ unstarted.initDone = false ∧ unstarted.cfg.wellFormed = true) ∧
    IllegalWord 0 ∧
    (¬ IllegalWord 0x10000000 ∧ fieldOp 0x10000000 = 1) ∧
    (¬ IllegalWord 0x50000000 ∧ fieldOp 0x50000000 ≠ 1) ∧
    (¬ IllegalWord 0x30000900 ∧ fieldOp 0x30000900 = 3 ∧ 8 < (fieldB 0x30000900).toNat) ∧
    (¬ IllegalWord 0x30000800 ∧ (fieldOp 0x30000800 = 1 ↔ ready.initDone = false) ∧ (fieldB 0x30000800).toNat ≤ 8) ∧
    (fieldOp 0x10000000 = 1 ↔ unstarted.initDone = false) := by
  unfold IllegalWord
  decide
theorem witness_HaltedBlockIgnoresWords : ∃ s u : State,
    (s.cfg.wellFormed = true ∧ s.faulted = true ∧ s.pending = .word 0xB0000000 :: []) ∧
    (u.cfg.wellFormed = true ∧ u.faulted = true ∧ u.pending = .reset :: []) :=
  ⟨{ halted with pending := [.word 0xB0000000] }, { halted with pending := [.reset] }, by decide, by decide⟩
theorem witness_StatusBitsClearedOnlyByReset : ∃ s u : State,
    (s.faulted = true ∧ s.initDone = true ∧ ∃ t, step s = .next t ∧ (t.faulted, t.initDone) = (false, false)) ∧
    (u.faulted = true ∧ ∃ t, step u = .next t ∧ t.faulted = true) :=
  ⟨{ halted with pending := [.reset] }, { halted with pending := [.word 0xB0000000] },
    ⟨by decide, by decide, step_of_afterStep (f := fun t => (t.faulted, t.initDone)) (by decide)⟩,
    ⟨by decide, step_of_afterStep (f := State.faulted) (by decide)⟩⟩

/-- The corners of the matrix, and a coordinate just outside in each direction. -/
theorem witness_translation : (board 2 8 2).wellFormed = true ∧ translatePixel (board 2 8 2) 0 0 = some ⟨0, 7, 0x80⟩ ∧
    translatePixel (board 2 8 2) 7 7 = some ⟨7, 0, 0x01⟩ ∧ translatePixel (board 2 8 2) 8 0 = none ∧
    translatePixel (board 2 8 2) 0 8 = none := by decide

/-- SET_PIXEL, CLEAR_PIXEL, WRITE_PIXEL, GET_PIXEL, SET_COLUMN: both sides of every range test. -/
theorem witness_pixel_operations : ready.Ready ∧ translatePixel ready.cfg 7 7 = some ⟨7, 0, 0x01⟩ ∧
    translatePixel ready.cfg 8 0 = none ∧ translatePixel ready.cfg 0 8 = none ∧ (7#8).toNat < ready.cfg.outputSize ∧
    ready.cfg.outputSize ≤ (8#8).toNat := ⟨witness_ready, by decide, by decide, by decide, by decide, by decide⟩
theorem witness_faults_before_init : unstarted.cfg.wellFormed = true ∧ unstarted.faulted = false ∧ unstarted.initDone = false := by
  decide

/-- For each operation code, a word with a stray bit, for the last clause of the operations' statements. -/
theorem witness_faults_on_stray_bits : ready.cfg.wellFormed = true ∧ ready.faulted = false ∧
    (fieldOp 0x10000001 = 0x1 ∧ (0x10000001 : OpWord) &&& 0x0FFFFFFF ≠ 0) ∧
    (fieldOp 0x20000001 = 0x2 ∧ (0x20000001 : OpWord) &&& 0x0F00FFFF ≠ 0) ∧
    (fieldOp 0x30000001 = 0x3 ∧ (0x30000001 : OpWord) &&& 0x0F0000FF ≠ 0) ∧
    (fieldOp 0x48000000 = 0x4 ∧ (0x48000000 : OpWord) &&& 0x0FFFFFFF ≠ 0) ∧
    (fieldOp 0x50000001 = 0x5 ∧ (0x50000001 : OpWord) &&& 0x0F0000FF ≠ 0) ∧
    (fieldOp 0x61000000 = 0x6 ∧ (0x61000000 : OpWord) &&& 0x0F0000FF ≠ 0) ∧
    (fieldOp 0x71000000 = 0x7 ∧ (0x71000000 : OpWord) &&& 0x0F000000 ≠ 0) ∧
    (fieldOp 0x80000001 = 0x8 ∧ (0x80000001 : OpWord) &&& 0x0F0000FF ≠ 0) ∧
    (fieldOp 0x90010000 = 0x9 ∧ (0x90010000 : OpWord) &&& 0x0FFFFFFF ≠ 0) ∧
    (fieldOp 0xA0000100 = 0xA ∧ (0xA0000100 : OpWord) &&& 0x0FFFFFFF ≠ 0) ∧
    (fieldOp 0xB0010000 = 0xB ∧ (0xB0010000 : OpWord) &&& 0x0FFFFFFF ≠ 0) ∧
    (fieldOp 0xC0000001 = 0xC ∧ (0xC0000001 : OpWord) &&& 0x0F0000FF ≠ 0) ∧
    (fieldOp 0xD0000100 = 0xD ∧ (0xD0000100 : OpWord) &&& 0x0F00FFFF ≠ 0) ∧
    (fieldOp 0xE0000001 = 0xE ∧ (0xE0000001 : OpWord) &&& 0x0F00FFFF ≠ 0) ∧
    (fieldOp 0xF0000001 = 0xF ∧ (0xF0000001 : OpWord) &&& 0x0F0000FF ≠ 0) := by decide

theorem witness_SelectChannel : ready.Running ∧ (1#8).toNat < ready.cfg.channelCount ∧ ready.cfg.channelCount ≤ (2#8).toNat :=
  ⟨witness_running, by decide, by decide⟩
theorem witness_BufferOperationsDriveNoPin : isBufferOperation .fill = true ∧ ∃ t, exec .fill ready = .next t :=
  ⟨rfl, (exec_of_after (f := State.status) (x := 1) (by decide)).imp fun _ h => h.1⟩
theorem witness_PixelReadsBackLastWrite : ready.Ready ∧ (7#8).toNat < ready.cfg.outputSize ∧ (7#8).toNat < 8 :=
  ⟨witness_ready, by decide, by decide⟩
theorem witness_PixelsAreIndependent : ready.Ready ∧ (7#8).toNat < ready.cfg.outputSize ∧ (7#8).toNat < 8 ∧
    ((7#8, 7#8) : Byte × Byte) ≠ (6, 7) := ⟨witness_ready, by decide, by decide, by decide⟩
theorem witness_BufferOperationsAreIdempotent : ready.Ready ∧ isBufferOperation (.setColumn 7 0xA5) = true := ⟨witness_ready, rfl⟩
theorem witness_SelectDrivesLines : ready.Running ∧ (1 : Fin 4).val < ready.cfg.numChips ∧
    ∀ i : Fin 4, i.val < ready.cfg.numChips → Pin.csN 2 ≠ .csN i := ⟨witness_running, by decide, by decide⟩
theorem witness_WriteBitsShiftsOut : ready.Running ∧ (0#8).toNat ≤ 8 ∧ 0 < (8#8).toNat ∧ (8#8).toNat ≤ 8 ∧ 8 < (9#8).toNat :=
  ⟨witness_running, by decide, by decide, by decide, by decide⟩
theorem witness_WriteSingleBitSendsPadding : ready.Running ∧ ready.cfg.padLevel = false := ⟨witness_running, by decide⟩

/-- RENDER's two sides: target 1 of two chips, and target 2. -/
theorem witness_RenderSendsBuffer : ready.Ready ∧ ready.activeTarget.toNat < ready.cfg.numChips ∧
    ∃ s : State, s.Ready ∧ s.cfg.numChips ≤ s.activeTarget.toNat :=
  ⟨witness_ready, by decide, { ready with activeTarget := 2 }, ⟨⟨by decide, by decide, by decide⟩, by decide, by decide⟩,
    by decide⟩
theorem witness_RenderSize : ∃ s t : State, s.cfg.wellFormed = true ∧ s.cfg.outputSize = 32 ∧ s.cfg.channelCount = 1 ∧
    s.cfg.numChips = 1 ∧ renderTo 0 s = .next t :=
  ⟨blockOf 1 32 1 0, _, by decide, rfl, rfl, rfl, renderTo_next (by decide)⟩
theorem witness_RenderSendsPixelsInColumnOrder : ready.Ready ∧ ready.activeTarget.toNat < ready.cfg.numChips ∧
    1 < ready.cfg.channelCount ∧ translatePixel ready.cfg 7 7 = some ⟨7, 0, 0x01⟩ :=
  ⟨witness_ready, by decide, by decide, by decide⟩

/-- A block in the window of a host that has selected chip 0. -/
def windowOpen : State :=
  ready.emit (selectLines ready.cfg 1)

theorem windowOpen_inv : windowOpen.Inv where
  config := by decide
  channel := by decide
  reserved := by decide
  noCause := by decide
  oneCause := by decide
  result := by decide
  pins := by decide
  fresh := by decide
  buffer := by decide
  lines := by decide
  strobe := by decide
  data := by decide
  untouched := by
    intro p hp
    cases p with
    | csN i => revert i; decide
    | wr => revert hp; decide
    | data => revert hp; decide
    | clk => rfl

/-- RENDER; SET_BRIGHTNESS with a plain mask and with the sentinel; INIT; the primitives with count 8, in an open window and
with no chip selected. -/
theorem witness_TransactionsReachSelectedChipsOnly : ready.Ready ∧ ready.Inv ∧ ready.activeTarget.toNat < ready.cfg.numChips ∧
    (3 : Byte) ≠ ready.cfg.currentTarget ∧ (0x10 : Byte) = ready.cfg.currentTarget ∧
    (unstarted.cfg.wellFormed = true ∧ unstarted.faulted = false ∧ unstarted.initDone = false) ∧ (8#8).toNat ≤ 8 ∧
    (windowOpen.Running ∧ windowOpen.Inv ∧ (windowOpen.pins.get (.csN 0)).level = .low ∧
      (windowOpen.pins.get (.csN 1)).level ≠ .low) ∧ (ready.pins.get (.csN 0)).level ≠ .low :=
  ⟨witness_ready, witness_inv, by decide, by decide, by decide, by decide, by decide,
    ⟨⟨by decide, by decide, by decide⟩, windowOpen_inv, by decide, by decide⟩, by decide⟩
theorem witness_SelectTarget : ready.Running ∧ ready.cfg.numChips ≤ (2#8).toNat := ⟨witness_running, by decide⟩
theorem witness_InitBringsUp : (unstarted.cfg.wellFormed = true ∧ unstarted.faulted = false ∧ unstarted.initDone = false) ∧
    (ready.cfg.wellFormed = true ∧ ready.faulted = false ∧ ready.initDone = true) := by decide

/-- INIT completes in the two configurations of R85's examples. -/
theorem witness_InitSize : ∃ s t u v : State,
    (s.cfg.wellFormed = true ∧ s.faulted = false ∧ s.initDone = false ∧ exec .init s = .next t ∧
      s.cfg.numChips = 1 ∧ s.cfg.channelCount = 1 ∧ s.cfg.len = 32) ∧
    (u.cfg.wellFormed = true ∧ u.faulted = false ∧ u.initDone = false ∧ exec .init u = .next v ∧
      u.cfg.numChips = 2 ∧ u.cfg.channelCount = 1 ∧ u.cfg.len = 32) :=
  ⟨State.resetWith (board 1 32 1), _, State.resetWith (board 2 32 1), _,
    ⟨by decide, by decide, by decide, exec_init (by decide) (by decide) (by decide), rfl, rfl, rfl⟩,
    ⟨by decide, by decide, by decide, exec_init (by decide) (by decide) (by decide), rfl, rfl, rfl⟩⟩

/-- SET_BRIGHTNESS: a plain mask, the sentinel with chip 1, the sentinel with no chip, and levels at both clamps. -/
theorem witness_SetBrightnessSendsPwm : ready.Running ∧ (3 : Byte) ≠ ready.cfg.currentTarget ∧
    (0x10 : Byte) = ready.cfg.currentTarget ∧ ready.activeTarget.toNat < ready.cfg.numChips ∧
    (∃ s : State, s.Running ∧ s.cfg.numChips ≤ s.activeTarget.toNat) ∧
    (0#8).toNat = 0 ∧ 1 ≤ (1#8).toNat ∧ (16#8).toNat ≤ 16 ∧ 16 < (17#8).toNat :=
  ⟨witness_running, by decide, by decide, by decide,
    ⟨{ ready with activeTarget := 2 }, ⟨by decide, by decide, by decide⟩, by decide⟩, by decide, by decide, by decide, by decide⟩
theorem witness_EventCounts : ready.faulted = false ∧ (∃ t, exec .writeSingleBit ready = .next t ∧ t.faulted = false) ∧
    (∃ t, exec (.writeBits 0 9) ready = .next t ∧ t.faulted = true) :=
  ⟨by decide, exec_of_after (f := State.faulted) (by decide), exec_of_after (f := State.faulted) (by decide)⟩
theorem witness_InvariantAtReset : (board 4 16 4).wellFormed = true := by decide

/-- The invariant with an input waiting. -/
theorem inv_of_pending {s : State} (h : s.Inv) (inputs : List HostInput) : State.Inv { s with pending := inputs } :=
  ⟨h.config, h.channel, h.reserved, h.noCause, h.oneCause, h.result, h.pins, h.fresh, h.buffer, h.lines, h.strobe, h.data,
    h.untouched⟩

theorem witness_InvariantKeptByStep : ∃ s : State, s.Inv ∧ ∃ t, step s = .next t ∧ t.pending = [] :=
  ⟨{ ready with pending := [.word 0x90000000] }, inv_of_pending witness_inv _,
    step_of_afterStep (f := State.pending) (by decide)⟩
theorem witness_InvariantStatesNeverStop : ∃ s : State, s.Inv ∧ s.pending = [.word 0xB0000000] :=
  ⟨{ ready with pending := [.word 0xB0000000] }, inv_of_pending witness_inv _, rfl⟩
theorem witness_StrobeLowAfterEveryOperation : (ready.initDone = true → (ready.pins.get .wr).level = .low) ∧
    ∃ t, exec (.writeBits 1 1) ready = .next t ∧ t.initDone = true :=
  ⟨by decide, exec_of_after (f := State.initDone) (by decide)⟩

/-- A RENDER that emits, from an open window, and a register write of an Idle block. -/
theorem witness_CompositesEndIdle : ready.Inv ∧ (∃ t, exec .render ready = .next t ∧ decide (t.trace ≠ ready.trace) = true) ∧
    ready.pins.idle ready.cfg = true ∧ ∃ t, exec (.selectTarget 0) ready = .next t ∧ t.activeTarget = 0 :=
  ⟨witness_inv, exec_of_after (f := fun t => decide (t.trace ≠ ready.trace)) (by decide), by decide,
    exec_of_after (f := State.activeTarget) (by decide)⟩

/-- A trace with a strobe: the events of one bit sent before any other. -/
theorem witness_StrobeTimingKept : ∃ s : State, StrobesTimed s.cfg.tProp s.trace ∧ ∃ t, step s = .next t ∧ t.trace.length = 8 := by
  refine ⟨{ blockOf 1 8 1 0 with trace := bitEvents (board 1 8 1) true, pending := [.word 0x40000000] }, ?_,
    step_of_afterStep (f := fun t => t.trace.length) (by decide)⟩
  intro before after h
  change [Event.set .data true, .wait 50, .set .wr true, .set .wr false] = before ++ .set .wr true :: after at h
  match before, h with
  | [], h => simp at h
  | [_], h => simp at h
  | [_, _], h => simp only [List.cons_append, List.nil_append, List.cons.injEq] at h; exact ⟨[], true, by simp [← h.1, ← h.2.1]; rfl⟩
  | [_, _, _], h => simp at h
  | _ :: _ :: _ :: _ :: rest, h => simp at h
theorem witness_StrobesRiseKept : ∃ s : State, s.Inv ∧ StrobesRise s.cfg s.trace ∧ ∃ t, step s = .next t ∧ t.initDone = true := by
  have hinv : (State.resetWith (board 1 8 1)).Inv := by
    refine ⟨by decide, by decide, by decide, by decide, by decide, by decide, rfl, by decide, by decide, by decide, by decide,
      by decide, ?_⟩
    intro p hp
    exact Pins.get_reset p
  refine ⟨{ State.resetWith (board 1 8 1) with pending := [.word 0x10000000] }, inv_of_pending hinv _, ?_,
    step_of_afterStep (f := State.initDone) (by decide +kernel)⟩
  intro before after h
  simp [State.resetWith] at h

/-- Each written register changes in some operation. -/
theorem witness_OnlyTheseOperationsWrite :
    (∃ t, exec (.selectTarget 0) ready = .next t ∧ decide (t.activeTarget ≠ ready.activeTarget) = true) ∧
    (∃ t, exec (.selectChannel 0) ready = .next t ∧ decide (t.activeChannel ≠ ready.activeChannel) = true) ∧
    (∃ t, exec (.getPixel 1 0) ready = .next t ∧ decide (t.result ≠ ready.result) = true) ∧
    (∃ t, exec .clear ready = .next t ∧ decide (t.fb ≠ ready.fb) = true) :=
  ⟨exec_of_after (f := fun t => decide (t.activeTarget ≠ ready.activeTarget)) (by decide),
    exec_of_after (f := fun t => decide (t.activeChannel ≠ ready.activeChannel)) (by decide),
    exec_of_after (f := fun t => decide (t.result ≠ ready.result)) (by decide),
    exec_of_after (f := fun t => decide (t.fb ≠ ready.fb)) (by decide)⟩
theorem witness_TraceOnlyGrows : ∃ t, executeWord 0x40000000 ready = .next t ∧ decide (t.trace = ready.trace) = false :=
  executeWord_of_afterWord (f := fun t => decide (t.trace = ready.trace)) (by decide)
theorem witness_EventsNameConfiguredPins : ∃ t, exec (.select 0xFF) ready = .next t ∧ t.trace.length = ready.trace.length + 2 :=
  exec_of_after (f := fun t => t.trace.length) (by decide)
theorem witness_ConfigurationNeverChanges : ∃ t, step ({ ready with pending := [.reset] } : State) = .next t ∧ t.trace = [] :=
  step_of_afterStep (f := State.trace) (by decide)

end Sys2Proof.Tests
end

-- ==== The scope of the block (spec/00_scope.md): proofs ====
section
/-! SUPPORT. What is refused (R9), which operation writes which part of the state (R8, R20, R21, R23, R25), and that no
step writes the configuration (R8). -/

namespace Sys2Proof.Machine

section writers

variable {i : Instr} {s t : State}

/-! ## Ill-formed configurations -/

theorem step_illFormed (h : s.cfg.wellFormed = false) : step s = .refused .illFormedConfig := by
  simp [step, acceptNext, h]

theorem exec_illFormed (h : s.cfg.wellFormed = false) (i : Instr) : exec i s = .refused .illFormedConfig := by
  by_cases hi : i = .init
  · subst hi
    exact onceOnly_illFormed h
  · obtain ⟨body, hbody⟩ := exec_afterInit hi
    rw [hbody, afterInit_illFormed h]

/-! ## What an effect writes -/

/-- Only SELECT_TARGET writes `ACTIVE_TARGET`, its operand (R20). -/
theorem Effect.activeTarget (h : Effect i s t) (hne : t.activeTarget ≠ s.activeTarget) :
    i = .selectTarget t.activeTarget := by
  cases h with
  | target k => rfl
  | _ => exact absurd rfl hne

/-- Only SELECT_CHANNEL writes `ACTIVE_CHANNEL`, an operand that names a channel (R21). -/
theorem Effect.activeChannel (h : Effect i s t) (hne : t.activeChannel ≠ s.activeChannel) :
    i = .selectChannel t.activeChannel ∧ t.activeChannel.toNat < s.cfg.channelCount := by
  cases h with
  | channel c hc => exact ⟨rfl, hc⟩
  | _ => exact absurd rfl hne

/-- Only GET_PIXEL writes RESULT, one bit (R23). -/
theorem Effect.getPixel_of_result (h : Effect i s t) (hne : t.result ≠ s.result) :
    (∃ x y, i = .getPixel x y) ∧ t.result.toNat < 2 := by
  cases h with
  | result x y r hr => exact ⟨⟨x, y, rfl⟩, hr⟩
  | _ => exact absurd rfl hne

/-- INIT apart, only a buffer writer writes the frame buffer (R25). -/
theorem Effect.writesBuffer_of_fb (h : Effect i s t) (hne : t.fb ≠ s.fb) : writesBuffer i = true := by
  cases h with
  | buffer m hi hm => exact hi
  | _ => exact absurd rfl hne

/-- The six buffer writers by name (R25). -/
theorem writesBuffer_iff : writesBuffer i = true ↔
    i = .fill ∨ i = .clear ∨ (∃ x y, i = .setPixel x y) ∨ (∃ x y, i = .clearPixel x y) ∨
      (∃ x y v, i = .writePixel x y v) ∨ ∃ x v, i = .setColumn x v := by
  cases i <;> simp [writesBuffer]

/-! ## What an operation writes -/

/-- Whatever raising a fault leaves alone is changed only by INIT's sequence or by an operation's effect. -/
theorem exec_changed {α : Type} (f : State → α) (hraise : ∀ c, f (s.raiseFault c) = f s) (h : exec i s = .next t)
    (hne : f t ≠ f s) : (i = .init ∧ t = s.initialized) ∨ Effect i s t := by
  obtain ⟨-, ⟨-, rfl⟩ | ⟨-, c, -, rfl⟩ | ⟨-, -, hinit⟩ | ⟨-, -, he⟩⟩ := exec_next h
  · exact absurd rfl hne
  · exact absurd (hraise c) hne
  · exact .inl hinit
  · exact .inr he

theorem exec_cfg (h : exec i s = .next t) : t.cfg = s.cfg := by
  by_contra hne
  obtain ⟨-, rfl⟩ | he := exec_changed State.cfg (raiseFault_cfg s) h hne
  · exact hne rfl
  · exact hne he.cfg

theorem exec_pending (h : exec i s = .next t) : t.pending = s.pending := by
  by_contra hne
  obtain ⟨-, rfl⟩ | he := exec_changed State.pending (raiseFault_pending s) h hne
  · exact hne rfl
  · exact hne he.pending

theorem executeWord_cfg {w : OpWord} (h : executeWord w s = .next t) : t.cfg = s.cfg := by
  obtain ⟨-, ⟨-, rfl⟩ | ⟨-, -, rfl⟩ | ⟨-, i, -, hexec⟩⟩ := executeWord_next h
  · rfl
  · exact raiseFault_cfg s _
  · exact exec_cfg hexec

end writers

/-! ## The obligations -/

/-- Settles O11: the bounds of R9 are part of `wellFormed`, and step and the common checks of every operation refuse a
configuration that is not well formed. -/
theorem illFormedConfigurationRefused : Obligations.IllFormedConfigurationRefused := by
  intro s hbounds
  have hw : s.cfg.wellFormed = false := Bool.eq_false_iff.mpr fun hw => hbounds (wellFormed_bounds hw)
  exact ⟨step_illFormed hw, exec_illFormed hw⟩

/-- Settles O48: a register or the buffer changes only by INIT's sequence or by an effect (`exec_changed`), and each effect
writes one of them. -/
theorem onlyTheseOperationsWrite : Obligations.OnlyTheseOperationsWrite := by
  intro s t i h
  refine ⟨fun hne => ?_, fun hne => ?_, fun hne => ?_, fun hne => ?_, exec_pending h, exec_cfg h⟩
  · obtain ⟨rfl, rfl⟩ | he := exec_changed State.activeTarget (raiseFault_activeTarget s) h hne
    · exact .inl ⟨rfl, rfl⟩
    · exact .inr (he.activeTarget hne)
  · obtain ⟨rfl, rfl⟩ | he := exec_changed State.activeChannel (raiseFault_activeChannel s) h hne
    · exact .inl ⟨rfl, rfl⟩
    · exact .inr (he.activeChannel hne)
  · obtain ⟨rfl, rfl⟩ | he := exec_changed State.result (raiseFault_result s) h hne
    · exact absurd rfl hne
    · exact he.getPixel_of_result hne
  · obtain ⟨hinit, -⟩ | he := exec_changed State.fb (raiseFault_fb s) h hne
    · exact .inl hinit
    · exact .inr (writesBuffer_iff.mp (he.writesBuffer_of_fb hne))

/-- Settles O51: waiting and reset keep the configuration, and so does every word (`executeWord_cfg`). -/
theorem configurationNeverChanges : Obligations.ConfigurationNeverChanges := by
  intro s t h
  obtain ⟨-, ⟨-, rfl⟩ | ⟨rest, -, rfl⟩ | ⟨w, rest, -, hword⟩⟩ := step_next h
  · rfl
  · exact assertReset_cfg _
  · exact (executeWord_cfg hword).trans rfl

end Sys2Proof.Machine
end

-- ==== The state of the block (spec/10_state.md): proofs ====
section
/-! SUPPORT. What holds of the state at reset (R29) and in every run from it: which events an operation appends (R18, R24),
where it leaves the write strobe and the lines (R26, R27), and the invariant (R21 to R25, R29). -/

namespace Sys2Proof.Machine

section state

variable {cfg : Config} {ps : Pins} {p : Pin} {e : Event} {es : List Event} {i : Instr} {s t : State}

/-! ## What lists of events do to the pins -/

/-- What one event of a list brings about and no event undoes holds after the whole list. -/
theorem Pins.run_of_mem {P : Pins → Prop} (kept : ∀ ps e, P ps → P (ps.apply e)) (made : ∀ ps : Pins, P (ps.apply e))
    (he : e ∈ es) : P (ps.run es) := by
  have keptByRun : ∀ (fs : List Event) (qs : Pins), P qs → P (qs.run fs) := by
    intro fs
    induction fs with
    | nil => exact fun _ hq => hq
    | cons f fs ih => exact fun qs hq => ih _ (kept qs f hq)
  obtain ⟨before, after, rfl⟩ := List.append_of_mem he
  rw [Pins.run_append, Pins.run_cons]
  exact keptByRun after _ (made _)

/-- No event takes a pin out of output mode, so a pin that was configured stays an output (R18). -/
theorem Pins.mode_run_of_cfg (h : .cfg p ∈ es) : ((ps.run es).get p).mode = .output := by
  refine Pins.run_of_mem (P := fun qs => (qs.get p).mode = .output) ?_ (by simp) h
  intro qs e hq
  cases e with
  | cfg q => rw [Pins.get_apply_cfg]; split <;> simp [hq]
  | set q l => rw [Pins.get_apply_set]; split <;> simp_all
  | wait n => exact hq

/-- No event makes a level unknown, so a pin that was driven stays at a known level (R18). -/
theorem Pins.level_run_of_set {l : Bool} (h : .set p l ∈ es) : ((ps.run es).get p).level ≠ .unknown := by
  refine Pins.run_of_mem (P := fun qs => (qs.get p).level ≠ .unknown) ?_ (by simp [Level.ofBool_known]) h
  intro qs e hq
  cases e with
  | cfg q => rw [Pins.get_apply_cfg]; split <;> simp_all
  | set q l => rw [Pins.get_apply_set]; split <;> simp [hq, Level.ofBool_known]
  | wait n => exact hq

/-- A pin's state is its mode and its level (R18). -/
theorem PinState.eq_mk {v : PinState} {mode : PinMode} {level : Level} (hm : v.mode = mode) (hl : v.level = level) :
    v = ⟨mode, level⟩ := by
  subst hm hl
  rfl

/-- The block is Idle: every configured line high and WR low (R26). -/
theorem Pins.idle_iff : ps.idle cfg = true ↔
    (∀ i : Fin 4, i.val < cfg.numChips → (ps.get (.csN i)).level = .high) ∧ (ps.get .wr).level = .low := by
  simp only [Pins.idle, Bool.and_eq_true, List.all_eq_true, beq_iff_eq, mem_csLines, Pins.get]

/-- An event names the pin it configures or drives. -/
theorem Event.pin?_eq_some : e.pin? = some p ↔ e = .cfg p ∨ ∃ l, e = .set p l := by
  cases e <;> simp [Event.pin?]

/-! ## The transactions of the composite operations end Idle -/

/-- A render ends Idle, from any pins (R78, R26). -/
theorem renderTransaction_idle (mask : Byte) (bytes : List Byte) :
    (ps.run (transaction cfg mask (writeRamFrame cfg bytes))).idle cfg = true := by
  obtain ⟨b, rest, hframe, hrest⟩ := writeRamFrame_head cfg bytes
  exact transaction_idle hframe hrest

/-- A transaction with a command frame ends Idle, from any pins (R84, R86, R26). -/
theorem commandTransaction_idle (mask : Byte) (codes : List Byte) :
    (ps.run (transaction cfg mask (commandFrame cfg codes))).idle cfg = true := by
  obtain ⟨b, rest, hframe, hrest⟩ := commandFrame_head cfg codes
  exact transaction_idle hframe hrest

/-- INIT ends Idle: its broadcast does, and so does each render after it (R82). -/
theorem initEvents_idle : (ps.run (initEvents cfg)).idle cfg = true := by
  have renders : ∀ (ks : List Nat) (qs : Pins), qs.idle cfg = true →
      (qs.run (ks.flatMap fun k =>
        transaction cfg (chipMask k) (writeRamFrame cfg (List.replicate cfg.bufferBytes 0)))).idle cfg = true := by
    intro ks
    induction ks with
    | nil => exact fun _ hq => hq
    | cons k ks ih =>
      intro qs _
      rw [List.flatMap_cons, Pins.run_append]
      exact ih _ (renderTransaction_idle _ _)
  rw [initEvents, Pins.run_append, Pins.run_append]
  exact renders _ _ (commandTransaction_idle _ _)

/-! ## The events of INIT -/

/-- Phase 1 of INIT configures every line, WR and DATA (R82). -/
theorem cfg_mem_initEvents (hp : p ≠ .clk) (hc : hasPin cfg p = true) : .cfg p ∈ initEvents cfg := by
  have h : .cfg p ∈ initPinEvents cfg := by
    cases p with
    | csN i => simpa [initPinEvents, mem_csLines, hasPin, selectLines] using hc
    | wr => simp [initPinEvents]
    | data => simp [initPinEvents]
    | clk => exact absurd rfl hp
  simp [initEvents, h]

/-- The first bit of INIT's broadcast drives DATA (R83, R71). -/
theorem setData_mem_initEvents (cfg : Config) : ∃ b, .set .data b ∈ initEvents cfg := by
  obtain ⟨b, rest, hframe, -⟩ := commandFrame_head cfg (initCommands cfg)
  exact ⟨b, by simp [initEvents, broadcastEvents, transaction, hframe, bitEvents]⟩

/-- INIT names only pins that the configuration has, and not CLK (R18, 92 D19). -/
theorem initEvents_names : ∀ e ∈ initEvents cfg, ∀ p, e.pin? = some p → p ≠ .clk ∧ hasPin cfg p = true := by
  intro e he p hp
  simp only [initEvents, List.mem_append, or_assoc] at he
  obtain hphase1 | hbroadcast | hrenders := he
  · simp only [initPinEvents, selectLines, List.mem_append, List.mem_map, mem_csLines, List.mem_cons,
      List.not_mem_nil, or_false] at hphase1
    obtain ((⟨i, hi, rfl⟩ | rfl | rfl) | ⟨i, hi, rfl⟩) | rfl := hphase1 <;>
      obtain rfl := Option.some.inj hp <;> simp_all [hasPin]
  · exact (sent_transaction _ (sent_commandFrame _ _)).names e hbroadcast p hp
  · exact (Sent.flatMap (fun k => sent_transaction _ (sent_writeRamFrame _ _)) _).names e hrenders p hp

/-- INIT leaves CLK and the lines that are not configured (R18). -/
theorem initEvents_untouched (hp : p = .clk ∨ hasPin cfg p = false) : (ps.run (initEvents cfg)).get p = ps.get p := by
  refine Pins.get_run_other fun e he hpe => ?_
  obtain ⟨hclk, hc⟩ := initEvents_names e he p hpe
  obtain hp | hp := hp
  · exact hclk hp
  · simp [hc] at hp

/-! ## What an operation appends -/

/-- An operation appends events that name configured pins only, and moves the pins by exactly them (R18, R24). -/
theorem exec_emits (h : exec i s = .next t) : ∃ evs, t.trace = s.trace ++ evs ∧ t.pins = s.pins.run evs ∧
    ∀ e ∈ evs, ∀ p, e.pin? = some p → p ≠ .clk ∧ hasPin s.cfg p = true := by
  obtain ⟨-, ⟨-, rfl⟩ | ⟨-, c, -, rfl⟩ | ⟨-, -, -, rfl⟩ | ⟨-, -, he⟩⟩ := exec_next h
  · exact ⟨[], by simp⟩
  · exact ⟨[], by simp⟩
  · exact ⟨initEvents s.cfg, rfl, rfl, initEvents_names⟩
  · obtain ⟨-, es, hs, rfl⟩ | ⟨hpins, htrace⟩ := he.wire_or_quiet
    · exact ⟨es, rfl, rfl, hs.names⟩
    · exact ⟨[], by simp [hpins, htrace]⟩

/-- An operation that appends no event moves no pin. -/
theorem exec_pins_of_trace (h : exec i s = .next t) (htrace : t.trace = s.trace) : t.pins = s.pins := by
  obtain ⟨evs, happended, hpins, -⟩ := exec_emits h
  obtain rfl : evs = [] := by simpa [htrace] using happended
  exact hpins

/-- A word appends events and moves the pins by exactly them (R18, R24). -/
theorem executeWord_emits {w : OpWord} (h : executeWord w s = .next t) :
    ∃ evs, t.trace = s.trace ++ evs ∧ t.pins = s.pins.run evs := by
  obtain ⟨-, ⟨-, rfl⟩ | ⟨-, -, rfl⟩ | ⟨-, i, -, hexec⟩⟩ := executeWord_next h
  · exact ⟨[], by simp⟩
  · exact ⟨[], by simp⟩
  · obtain ⟨evs, htrace, hpins, -⟩ := exec_emits hexec
    exact ⟨evs, htrace, hpins⟩

/-! ## The composite operations -/

/-- Only INIT and the operations that drive pins append events (R25, R66). -/
theorem exec_wire_of_trace (h : exec i s = .next t) (htrace : t.trace ≠ s.trace) :
    (i = .init ∧ t = s.initialized) ∨ drivesWire i = true := by
  obtain hinit | he := exec_changed State.trace (raiseFault_trace s) h htrace
  · exact .inl hinit
  · obtain ⟨hdrives, -⟩ | ⟨-, hquiet⟩ := he.wire_or_quiet
    · exact .inr hdrives
    · exact absurd hquiet htrace

/-- The checks of R92 append no event: where events were appended, the operation ran. -/
theorem afterInit_body_of_trace {body : State → Answer State} (h : afterInit body s = .next t)
    (htrace : t.trace ≠ s.trace) : body s = .next t := by
  obtain ⟨-, ⟨-, rfl⟩ | ⟨-, -, rfl⟩ | ⟨-, -, hbody⟩⟩ := afterInit_next h
  · exact absurd rfl htrace
  · exact absurd rfl htrace
  · exact hbody

/-- INIT ends Idle where it appends events (R82). -/
theorem exec_init_idle (h : exec .init s = .next t) (htrace : t.trace ≠ s.trace) : t.pins.idle s.cfg = true := by
  obtain ⟨-, rfl⟩ | hdrives := exec_wire_of_trace h htrace
  · exact initEvents_idle
  · simp [drivesWire] at hdrives

/-- RENDER ends Idle where it appends events: there it is one transaction (R78). -/
theorem exec_render_idle (h : exec .render s = .next t) (htrace : t.trace ≠ s.trace) : t.pins.idle s.cfg = true := by
  simp only [exec, execRender] at h
  replace h := afterInit_body_of_trace h htrace
  split at h
  · exact absurd (congrArg State.trace (Host.Outcome.next.inj h)).symm htrace
  · obtain ⟨bytes, rfl⟩ := renderTo_eq_next h
    exact renderTransaction_idle _ _

/-- SET_BRIGHTNESS ends Idle where it appends events: there it is one transaction (R86). -/
theorem exec_setBrightness_idle {level mask : Byte} (h : exec (.setBrightness level mask) s = .next t)
    (htrace : t.trace ≠ s.trace) : t.pins.idle s.cfg = true := by
  simp only [exec, execSetBrightness] at h
  replace h := afterInit_body_of_trace h htrace
  split at h
  · exact absurd (congrArg State.trace (Host.Outcome.next.inj h)).symm htrace
  · obtain rfl := Host.Outcome.next.inj h
    exact commandTransaction_idle _ _

/-- A composite operation ends Idle where it appends events (R26). -/
theorem composite_idle (hi : i = .init ∨ i = .render ∨ ∃ level mask, i = .setBrightness level mask)
    (h : exec i s = .next t) (htrace : t.trace ≠ s.trace) : t.pins.idle s.cfg = true := by
  obtain rfl | rfl | ⟨level, mask, rfl⟩ := hi
  · exact exec_init_idle h htrace
  · exact exec_render_idle h htrace
  · exact exec_setBrightness_idle h htrace

/-- Beside the three primitives only the composite operations append events. -/
theorem composite_of_trace (hprim : ∀ m v c, i ≠ .select m ∧ i ≠ .writeBits v c ∧ i ≠ .writeSingleBit)
    (h : exec i s = .next t) (htrace : t.trace ≠ s.trace) :
    i = .init ∨ i = .render ∨ ∃ level mask, i = .setBrightness level mask := by
  obtain ⟨hinit, -⟩ | hdrives := exec_wire_of_trace h htrace
  · exact .inl hinit
  · cases i with
    | select m => exact absurd rfl (hprim m 0 0).1
    | writeBits v c => exact absurd rfl (hprim 0 v c).2.1
    | writeSingleBit => exact absurd rfl (hprim 0 0 0).2.2
    | render => exact .inr (.inl rfl)
    | setBrightness level mask => exact .inr (.inr ⟨level, mask, rfl⟩)
    | _ => simp [drivesWire] at hdrives

/-! ## The invariant -/

/-- The invariant says nothing about the inputs that wait. -/
theorem State.Inv.with_pending (h : s.Inv) (inputs : List HostInput) : State.Inv { s with pending := inputs } :=
  { h with }

/-- The reset input leads to the invariant (R29, R103). -/
theorem assertReset_inv (h : s.cfg.wellFormed = true) : s.assertReset.Inv := by
  obtain ⟨-, -, -, -, -, -, hchannels, -⟩ := wellFormed_bounds h
  exact
    { config := h
      channel := hchannels
      reserved := assertReset_statusReserved s
      noCause := fun _ => assertReset_causeCode s
      oneCause := by simp
      result := by simp
      pins := rfl
      fresh := by simp
      buffer := by simp
      lines := by simp
      strobe := by simp
      data := by simp
      untouched := fun p _ => Pins.get_reset p }

/-- The invariant holds at reset of every well-formed configuration (R29). -/
theorem resetWith_inv (h : cfg.wellFormed = true) : (State.resetWith cfg).Inv :=
  assertReset_inv (s := .resetWith cfg) h

/-- Raising a fault writes `FAULT` and `CAUSE`, with a cause, and nothing else (R93). -/
theorem State.Inv.raiseFault (h : s.Inv) (c : Cause) : (s.raiseFault c).Inv :=
  { h with
    reserved := (raiseFault_statusReserved s c).trans h.reserved
    noCause := by simp
    oneCause := fun _ => by rw [raiseFault_causeCode]; cases c <;> decide
    fresh := fun hi => h.fresh (by simpa using hi)
    buffer := fun hi => h.buffer (by simpa using hi)
    lines := fun hi => h.lines (by simpa using hi)
    strobe := fun hi => h.strobe (by simpa using hi)
    data := fun hi => h.data (by simpa using hi) }

/-- INIT, which finds a fresh block, establishes what holds after INIT (R82, R25, R27, R29). -/
theorem State.Inv.initialized (h : s.Inv) (hi : s.initDone = false) : s.initialized.Inv := by
  obtain ⟨hfb, -⟩ := h.fresh hi
  obtain ⟨-, -, -, -, -, -, hchannels, -⟩ := wellFormed_bounds h.config
  obtain ⟨hlines, hwr⟩ := Pins.idle_iff.mp (initEvents_idle (cfg := s.cfg) (ps := s.pins))
  obtain ⟨b, hdata⟩ := setData_mem_initEvents s.cfg
  have hmode : ∀ p, p ≠ .clk → hasPin s.cfg p = true → (s.initialized.pins.get p).mode = .output :=
    fun p hp hc => Pins.mode_run_of_cfg (cfg_mem_initEvents hp hc)
  exact
    { config := h.config
      channel := hchannels
      reserved := (initialized_statusReserved s).trans h.reserved
      noCause := by simpa using h.noCause
      oneCause := by simpa using h.oneCause
      result := h.result
      pins := by simp [State.initialized, h.pins, Pins.run_append]
      fresh := by simp
      buffer := fun _ => by simp [State.initialized, hfb, Memory.writeAll_range_nil, Function.comp_def]
      lines := fun _ i hc => ⟨hmode _ (by simp) (decide_eq_true hc), (hlines i hc).trans_ne (by decide)⟩
      strobe := fun _ => PinState.eq_mk (hmode _ (by simp) rfl) hwr
      data := fun _ => ⟨hmode _ (by simp) rfl, Pins.level_run_of_set hdata⟩
      untouched := fun p hp => (initEvents_untouched hp).trans (h.untouched p hp) }

/-- What an operation sends after INIT keeps the invariant of the pins (R18, R24, R27, R29). -/
theorem State.Inv.emit (h : s.Inv) (hi : s.initDone = true) (hs : Sent s.cfg es) : (s.emit es).Inv :=
  { h with
    pins := by simp [h.pins, Pins.run_append]
    fresh := fun hno => absurd (hi.symm.trans hno) (by decide)
    lines := fun _ i hc => by
      obtain ⟨hmode, hknown⟩ := h.lines hi i hc
      exact ⟨(hs.mode _ _).trans hmode, hs.known hknown⟩
    strobe := fun _ => PinState.eq_mk ((hs.mode _ _).trans (by rw [h.strobe hi])) (hs.strobe_low (by rw [h.strobe hi]))
    data := fun _ => by
      obtain ⟨hmode, hknown⟩ := h.data hi
      exact ⟨(hs.mode _ _).trans hmode, hs.known hknown⟩
    untouched := fun p hp => (hs.untouched _ hp).trans (h.untouched p hp) }

/-- Each effect of an operation keeps the invariant: it writes one part of the state, within that part's bounds. -/
theorem State.Inv.effect (h : s.Inv) (hi : s.initDone = true) (he : Effect i s t) : t.Inv := by
  have hstarted {q : Prop} (hno : s.initDone = false) : q := absurd (hi.symm.trans hno) (by decide)
  cases he with
  | buffer m _ hm => exact { h with fresh := hstarted, buffer := fun _ => hm (h.buffer hi) }
  | result x y r hr => exact { h with fresh := hstarted, result := hr }
  | channel c hc => exact { h with fresh := hstarted, channel := hc }
  | noChannel c _ => exact h
  | target k => exact { h with fresh := hstarted }
  | wire es hs _ => exact h.emit hi hs

/-- Every operation keeps the invariant: it does nothing, raises a fault, is INIT's sequence or has one effect. -/
theorem State.Inv.exec (h : s.Inv) (hexec : exec i s = .next t) : t.Inv := by
  obtain ⟨-, ⟨-, rfl⟩ | ⟨-, c, -, rfl⟩ | ⟨-, hi, -, rfl⟩ | ⟨-, hi, he⟩⟩ := exec_next hexec
  · exact h
  · exact h.raiseFault c
  · exact h.initialized hi
  · exact h.effect hi he

/-- Every word keeps the invariant, an illegal one by raising a fault (R92). -/
theorem State.Inv.executeWord {w : OpWord} (h : s.Inv) (hword : executeWord w s = .next t) : t.Inv := by
  obtain ⟨-, ⟨-, rfl⟩ | ⟨-, -, rfl⟩ | ⟨-, i, -, hexec⟩⟩ := executeWord_next hword
  · exact h
  · exact h.raiseFault _
  · exact h.exec hexec

end state

/-! ## The obligations -/

/-- Settles O42: waiting changes nothing, reset establishes the invariant (`assertReset_inv`), and a word keeps it
(`State.Inv.executeWord`): by a fault, by INIT's sequence or by one effect. -/
theorem invariantKeptByStep : Obligations.InvariantKeptByStep := by
  intro s t hinv h
  obtain ⟨-, ⟨-, rfl⟩ | ⟨rest, -, rfl⟩ | ⟨w, rest, -, hword⟩⟩ := step_next h
  · exact hinv
  · exact assertReset_inv hinv.config
  · exact (hinv.with_pending rest).executeWord hword

/-- Settles O44: INIT ends Idle, and what is sent after INIT leaves WR low where it was low. -/
theorem strobeLowAfterEveryOperation : Obligations.StrobeLowAfterEveryOperation := by
  intro s t i hlow h hdone
  obtain ⟨-, ⟨-, rfl⟩ | ⟨-, c, -, rfl⟩ | ⟨-, -, -, rfl⟩ | ⟨-, hi, he⟩⟩ := exec_next h
  · exact hlow hdone
  · exact hlow (by simpa using hdone)
  · exact (Pins.idle_iff.mp initEvents_idle).2
  · obtain ⟨-, es, hs, rfl⟩ | ⟨hpins, -⟩ := he.wire_or_quiet
    · exact hs.strobe_low (hlow hi)
    · rw [hpins]
      exact hlow hi

/-- Settles O45: a composite operation that appends events ends in a transaction, which ends Idle (`composite_idle`); any
other operation beside the primitives appends none and so moves no pin. -/
theorem compositesEndIdle : Obligations.CompositesEndIdle := by
  intro s t i _ h
  rw [exec_cfg h]
  refine ⟨fun htrace hi => composite_idle hi h htrace, fun hprim hidle => ?_⟩
  by_cases htrace : t.trace = s.trace
  · rw [exec_pins_of_trace h htrace]
    exact hidle
  · exact composite_idle (composite_of_trace hprim h htrace) h htrace

/-- Settles O49: a fault appends nothing, and an operation appends what moves its pins (`exec_emits`). -/
theorem traceOnlyGrows : Obligations.TraceOnlyGrows := fun _ _ _ h => executeWord_emits h

/-- Settles O50: INIT names configured pins only (`initEvents_names`), and so does what is sent after it (`Sent.names`). -/
theorem eventsNameConfiguredPins : Obligations.EventsNameConfiguredPins := by
  intro s t i h
  obtain ⟨evs, htrace, -, hnames⟩ := exec_emits h
  exact ⟨evs, htrace, fun e he p hp => hnames e he p (Event.pin?_eq_some.mpr hp)⟩

/-- Settles O10: each field is the one `State.resetWith` gives, and a buffer that lists nothing reads nothing. -/
theorem stateAfterReset : Obligations.StateAfterReset := by
  refine ⟨Pins.get_reset, rfl, rfl, rfl, rfl, rfl, rfl, rfl, rfl, fun c i => ?_⟩
  simp [State.byteAt, State.reset, State.resetWith, Memory.read]

/-- Settles O41: `resetWith_inv`, and the configuration of `State.reset` is well formed. -/
theorem invariantAtReset : Obligations.InvariantAtReset :=
  ⟨resetWith_inv rfl, fun _ h => resetWith_inv h⟩

end Sys2Proof.Machine
end

-- ==== The frame buffer (spec/20_memory.md): proofs ====
section
/-! SUPPORT. What a ready state reads and which changes leave it ready (R25), that repeating a frame-buffer operation changes
nothing more (R34), and where a byte of the buffer stands among the bits of a render (R36, R37, R48). -/

namespace Sys2Proof.Machine

open Sys2Proof.Statement

section buffer

variable {s t : State} {on on' : Bool} {x y y' v : Byte} {m : Memory} {a c i : Nat} {p : PixelAddr}

/-! ## Ready states -/

/-- Every byte of every channel of a ready state holds a value (R25). -/
theorem State.Ready.read (hs : s.Ready) (hc : c < s.cfg.channelCount) (hi : i < s.cfg.len) :
    ∃ b, Memory.read (fbAddr s.cfg c i) s.fb = some b :=
  read_of_keys hs.buffer (fbAddr_lt hc hi)

theorem byteAt_of_lt (hc : c < s.cfg.channelCount) (hi : i < s.cfg.len) :
    s.byteAt c i = Memory.read (fbAddr s.cfg c i) s.fb := if_pos ⟨hc, hi⟩

theorem State.Ready.with_fb (hs : s.Ready) (hm : m.map Prod.fst = List.range s.cfg.bufferBytes) :
    State.Ready { s with fb := m } := ⟨⟨hs.config, hs.clean, hs.started⟩, hs.channel, hm⟩

theorem State.Ready.with_result (hs : s.Ready) (r : Byte) : State.Ready { s with result := r } :=
  ⟨⟨hs.config, hs.clean, hs.started⟩, hs.channel, hs.buffer⟩

theorem State.Ready.with_channel (hs : s.Ready) {k : Byte} (hk : k.toNat < s.cfg.channelCount) :
    State.Ready { s with activeChannel := k } := ⟨⟨hs.config, hs.clean, hs.started⟩, hk, hs.buffer⟩

/-- The buffer of a ready state, its bytes in channel-then-index order (R31), reads as its addresses do. -/
theorem State.Ready.bytes_getElem? (hs : s.Ready) (ha : a < s.cfg.bufferBytes) :
    (s.fb.map Prod.snd)[a]? = Memory.read a s.fb := by
  have hbytes := map_read_of_keys (m := s.fb) (n := s.cfg.bufferBytes) (k := 0) (by simp [hs.buffer])
  obtain ⟨b, hb⟩ := read_of_keys hs.buffer ha
  simp [← hbytes, ha, hb]

/-! ## One pixel -/

theorem pixelInto_pixelInto (on : Bool) (mask b : Byte) :
    pixelInto on mask (pixelInto on mask b) = pixelInto on mask b := by
  cases on <;> simp [pixelInto, BitVec.or_assoc, BitVec.and_assoc]

/-- Pixel `(x, y)` of the active channel is as switching it `on` leaves it. A coordinate out of range has no pixel. -/
def State.PixelIs (s : State) (on : Bool) (x y : Byte) : Prop :=
  ∀ p, translatePixel s.cfg x y = some p →
    ∃ b, Memory.read (fbAddr s.cfg s.activeChannel.toNat p.offset) s.fb = some b ∧ pixelInto on p.mask b = b

theorem plotPixel_invalid (hp : translatePixel s.cfg x y = none) : plotPixel on x y s = .next s := by
  simp [plotPixel, hp]

theorem plotPixel_valid (hp : translatePixel s.cfg x y = some p) : plotPixel on x y s = writePixelAt on p s := by
  simp [plotPixel, hp]

/-- Switching a pixel keeps a ready state ready. -/
theorem plotPixel_ready (hs : s.Ready) (h : plotPixel on x y s = .next t) : t.Ready := by
  obtain ⟨m, rfl, hm⟩ := plotPixel_buffer h
  exact hs.with_fb (hm hs.buffer)

/-- Switching a pixel completes in a ready state, and the pixel is then as switched. -/
theorem plotPixel_makes (hs : s.Ready) (on : Bool) (x y : Byte) :
    ∃ t, plotPixel on x y s = .next t ∧ t.Ready ∧ t.PixelIs on x y := by
  cases hp : translatePixel s.cfg x y with
  | none => exact ⟨s, plotPixel_invalid hp, hs, by simp [State.PixelIs, hp]⟩
  | some p =>
    obtain ⟨-, -, -, -, -, hlen⟩ := translate_some hs.config hp
    obtain ⟨b, hb⟩ := hs.read hs.channel hlen
    have hplot := (plotPixel_valid hp).trans (writePixelAt_next (on := on) hs.channel hlen hb)
    refine ⟨_, hplot, plotPixel_ready hs hplot, fun q hq => ?_⟩
    obtain rfl : p = q := Option.some.inj (hp.symm.trans hq)
    exact ⟨_, Memory.read_write_same _ _ _, pixelInto_pixelInto on p.mask b⟩

/-- Switching a pixel to what it is changes nothing. -/
theorem plotPixel_of_pixelIs (hs : s.Ready) (h : s.PixelIs on x y) : plotPixel on x y s = .next s := by
  cases hp : translatePixel s.cfg x y with
  | none => exact plotPixel_invalid hp
  | some p =>
    obtain ⟨-, -, -, -, -, hlen⟩ := translate_some hs.config hp
    obtain ⟨b, hb, hon⟩ := h p hp
    rw [plotPixel_valid hp, writePixelAt_next hs.channel hlen hb, hon,
      Memory.write_same (Memory.wf_of_keys_range hs.buffer) hb]

/-- The pixels of one column are in different bytes (R56), so switching one leaves the others. -/
theorem plotPixel_keeps (hs : s.Ready) (hne : y ≠ y') (h : s.PixelIs on x y)
    (hplot : plotPixel on' x y' s = .next t) : t.PixelIs on x y := by
  cases hp' : translatePixel s.cfg x y' with
  | none =>
    rw [plotPixel_invalid hp', Host.Outcome.next.injEq] at hplot
    exact hplot ▸ h
  | some p' =>
    rw [plotPixel_valid hp', writePixelAt_eq_next] at hplot
    obtain ⟨-, -, b', -, rfl⟩ := hplot
    intro p hp
    obtain ⟨b, hb, hon⟩ := h p hp
    obtain ⟨-, -, hoff, -⟩ := translate_some hs.config hp
    obtain ⟨-, -, hoff', -⟩ := translate_some hs.config hp'
    have haddr : fbAddr s.cfg s.activeChannel.toNat p.offset ≠ fbAddr s.cfg s.activeChannel.toNat p'.offset := by
      have := BitVec.toNat_ne.mp hne
      simp only [fbAddr]
      omega
    exact ⟨b, (Memory.read_write_other haddr _ _).trans hb, hon⟩

/-! ## Loops -/

/-- Where each pass of a loop completes and makes its own claim true, and no pass undoes the claim of another, the loop
completes and all claims hold at its end. -/
theorem forEach_makes {α : Type} {body : α → State → Answer State} {P : State → Prop} {Q : α → State → Prop} {xs : List α}
    (makes : ∀ x ∈ xs, ∀ s, P s → ∃ t, body x s = .next t ∧ P t ∧ Q x t)
    (keeps : ∀ x ∈ xs, ∀ z ∈ xs, x ≠ z → ∀ s t, P s → Q x s → body z s = .next t → Q x t) (hs : P s) :
    ∃ t, forEach body xs s = .next t ∧ P t ∧ ∀ x ∈ xs, Q x t := by
  induction xs using List.reverseRecOn with
  | nil => exact ⟨s, rfl, hs, by simp⟩
  | append_singleton xs z ih =>
    obtain ⟨u, hu, hPu, hQu⟩ := ih (fun x hx => makes x (by simp [hx]))
      fun x hx z hz => keeps x (by simp [hx]) z (by simp [hz])
    obtain ⟨t, ht, hPt, hQt⟩ := makes z (by simp) u hPu
    refine ⟨t, by simp [forEach_append, hu, ht], hPt, fun x hx => ?_⟩
    by_cases hxz : x = z
    · exact hxz ▸ hQt
    · have hmem : x ∈ xs := by simpa [hxz] using hx
      exact keeps x hx z (by simp) hxz u t hPu (hQu x hmem) ht

/-- A loop whose passes change nothing changes nothing. -/
theorem forEach_fixed {α : Type} {body : α → State → Answer State} {xs : List α} (h : ∀ x ∈ xs, body x s = .next s) :
    forEach body xs s = .next s := by
  induction xs with
  | nil => rfl
  | cons x xs ih => rw [forEach_cons, h x (by simp), andThen_next, ih fun z hz => h z (by simp [hz])]

/-- Writing one value over addresses that hold it already changes nothing. -/
theorem Memory.writeAll_writeAll (v : Byte) (as : List Nat) (hm : Memory.wf m = true) :
    Memory.writeAll v as (Memory.writeAll v as m) = Memory.writeAll v as m := by
  have hw := Memory.wf_writeAll v as hm
  refine Memory.ext_read (Memory.wf_writeAll v as hw) hw fun a => ?_
  by_cases ha : a ∈ as
  · rw [Memory.read_writeAll_mem v ha, Memory.read_writeAll_mem v ha]
  · rw [Memory.read_writeAll_other v ha]

/-! ## Repetition (R34) -/

/-- A body that completes in a ready state, and repeated in the state it leaves changes nothing more. -/
def Repeatable (body : State → Answer State) : Prop :=
  ∀ s : State, s.Ready → ∃ t, body s = .next t ∧ t.Ready ∧ body t = .next t

/-- The common checks pass in both runs. -/
theorem Repeatable.afterInit {body : State → Answer State} (h : Repeatable body) (hs : s.Ready) :
    ∃ t, afterInit body s = .next t ∧ Machine.afterInit body t = .next t := by
  obtain ⟨t, hst, ht, htt⟩ := h s hs
  exact ⟨t, (afterInit_running hs.config hs.clean hs.started).trans hst,
    (afterInit_running ht.config ht.clean ht.started).trans htt⟩

theorem plotPixel_repeatable (on : Bool) (x y : Byte) : Repeatable (plotPixel on x y) := by
  intro s hs
  obtain ⟨t, hst, ht, hpix⟩ := plotPixel_makes hs on x y
  exact ⟨t, hst, ht, plotPixel_of_pixelIs ht hpix⟩

/-- After the loop all eight pixels are as switched, since they are in different bytes. -/
theorem plotColumn_repeatable (position v : Byte) : Repeatable (plotColumn position v) := by
  intro s hs
  by_cases hpos : s.cfg.outputSize ≤ position.toNat
  · have hnop : plotColumn position v s = .next s := if_pos hpos
    exact ⟨s, hnop, hs, hnop⟩
  · have hloop : ∀ u : State, u.cfg = s.cfg → plotColumn position v u =
        forEach (fun k => plotPixel (v.getLsbD k) position (BitVec.ofNat 8 k)) (List.range 8) u :=
      fun u hu => if_neg (hu ▸ hpos)
    have hrows : ∀ k ∈ List.range 8, ∀ j ∈ List.range 8, k ≠ j → BitVec.ofNat 8 k ≠ BitVec.ofNat 8 j := by decide
    obtain ⟨t, hst, ht, hpix⟩ := forEach_makes
      (Q := fun k t => t.PixelIs (v.getLsbD k) position (BitVec.ofNat 8 k))
      (fun k _ u hu => plotPixel_makes hu (v.getLsbD k) position (BitVec.ofNat 8 k))
      (fun k hk j hj hne u w hu hQ hplot => plotPixel_keeps hu (hrows k hk j hj hne) hQ hplot) hs
    obtain ⟨m, rfl, -⟩ := forEach_plotPixel hst
    exact ⟨_, (hloop s rfl).trans hst, ht,
      (hloop { s with fb := m } rfl).trans (forEach_fixed fun k hk => plotPixel_of_pixelIs ht (hpix k hk))⟩

theorem fillActive_repeatable (v : Byte) : Repeatable fun s => fillChannel v s.activeChannel.toNat s := by
  intro s hs
  have hfill := fillChannel_next (v := v) hs.channel
  obtain ⟨m, hm, hkeys⟩ := fillChannel_buffer hs.config hfill
  have ht := hs.with_fb (hkeys hs.buffer)
  rw [← hm] at ht
  refine ⟨_, hfill, ht, (fillChannel_next ht.channel).trans ?_⟩
  simp only [Memory.writeAll_writeAll v _ (Memory.wf_of_keys_range hs.buffer)]

theorem zeroBuffer_repeatable : Repeatable zeroBuffer := by
  intro s hs
  have hzero := zeroBuffer_next s
  obtain ⟨m, hm, hkeys⟩ := zeroBuffer_buffer hzero
  refine ⟨_, hzero, hm ▸ hs.with_fb (hkeys hs.buffer), (zeroBuffer_next _).trans ?_⟩
  simp only [Memory.writeAll_writeAll 0 _ (Memory.wf_of_keys_range hs.buffer)]

/-- Reading a pixel completes in a ready state (R61). -/
theorem readPixel_completes (hs : s.Ready) (x y : Byte) : ∃ t, readPixel x y s = .next t := by
  cases hp : translatePixel s.cfg x y with
  | none => exact ⟨_, by simp only [readPixel, hp]; rfl⟩
  | some p =>
    obtain ⟨-, -, -, -, -, hlen⟩ := translate_some hs.config hp
    obtain ⟨b, hb⟩ := hs.read hs.channel hlen
    exact ⟨_, by simp only [readPixel, hp, fbRead_next hs.channel hlen hb, andThen_next]; rfl⟩

/-- What is read does not depend on RESULT. -/
theorem readPixel_with_result (x y r : Byte) (s : State) : readPixel x y { s with result := r } = readPixel x y s := rfl

theorem readPixel_repeatable (x y : Byte) : Repeatable (readPixel x y) := by
  intro s hs
  obtain ⟨t, hst⟩ := readPixel_completes hs x y
  obtain ⟨r, -, rfl⟩ := readPixel_result hst
  exact ⟨_, hst, hs.with_result r, (readPixel_with_result x y r s).trans hst⟩

theorem selectChannel_repeatable (k : Byte) :
    Repeatable fun s => if s.cfg.channelCount ≤ k.toNat then .next s else .next { s with activeChannel := k } := by
  intro s hs
  by_cases hk : s.cfg.channelCount ≤ k.toNat
  · exact ⟨s, if_pos hk, hs, if_pos hk⟩
  · exact ⟨_, if_neg hk, hs.with_channel (Nat.lt_of_not_le hk), if_neg hk⟩

end buffer

/-! ## The bits of a render -/

section bits

variable {cfg : Config} {s : State}

theorem dataLevels_append (es fs : List Event) : dataLevels (es ++ fs) = dataLevels es ++ dataLevels fs :=
  List.filterMap_append

/-- Chip-select writes carry no bit. -/
theorem dataLevels_selectLines (cfg : Config) (mask : Byte) : dataLevels (selectLines cfg mask) = [] := by
  simp [dataLevels, selectLines]

/-- Whole bits carry themselves (R71). -/
theorem dataLevels_bits (cfg : Config) (bs : List Bool) : dataLevels (bs.flatMap (bitEvents cfg)) = bs := by
  induction bs with
  | nil => rfl
  | cons b bs ih =>
    rw [List.flatMap_cons, dataLevels_append, ih]
    rfl

theorem dataLevels_writeBits (cfg : Config) (v : Byte) (n : Nat) : dataLevels (writeBitsEvents cfg v n) = msbFirst v n :=
  dataLevels_bits cfg _

/-- The data words carry each byte from bit 7 to bit 0 (R36). -/
theorem dataLevels_bytes (cfg : Config) (bytes : List Byte) :
    dataLevels (bytes.flatMap (byteEvents cfg)) = bytes.flatMap (msbFirst · 8) := by
  induction bytes with
  | nil => rfl
  | cons d ds ih => rw [List.flatMap_cons, dataLevels_append, ih, byteEvents_eq, dataLevels_writeBits, List.flatMap_cons]

/-- A render's bits (R48): three of the ID, seven of the address, then the data. -/
theorem dataLevels_render (cfg : Config) (mask : Byte) (bytes : List Byte) :
    dataLevels (transaction cfg mask (writeRamFrame cfg bytes)) =
      msbFirst (cfg.idWr.setWidth 8) 3 ++ msbFirst 0 7 ++ bytes.flatMap (msbFirst · 8) := by
  simp only [transaction, writeRamFrame, dataLevels_append, dataLevels_selectLines, dataLevels_writeBits, dataLevels_bytes,
    List.nil_append, List.append_nil]

/-- The bit `j` places after the most significant of `n`. -/
theorem msbFirst_getElem? (v : Byte) {n j : Nat} (hj : j < n) : (msbFirst v n)[j]? = some (v.getLsbD (n - 1 - j)) := by
  induction n generalizing j with
  | zero => omega
  | succ n ih =>
    cases j with
    | zero => simp
    | succ j =>
      rw [msbFirst_succ, List.getElem?_cons_succ, ih (by omega)]
      congr 2
      omega

/-- Bit `j` of byte `k` in the data of a render. -/
theorem dataBits_getElem? {bytes : List Byte} {k j : Nat} {b : Byte} (hb : bytes[k]? = some b) (hj : j < 8) :
    (bytes.flatMap (msbFirst · 8))[8 * k + j]? = some (b.getLsbD (7 - j)) := by
  induction bytes generalizing k with
  | nil => simp at hb
  | cons d ds ih =>
    rw [List.flatMap_cons]
    cases k with
    | zero =>
      obtain rfl : d = b := by simpa using hb
      rw [List.getElem?_append_left (by simpa using hj)]
      simpa using msbFirst_getElem? d hj
    | succ k =>
      rw [List.getElem?_append_right (by simp only [msbFirst_length]; omega), msbFirst_length,
        show 8 * (k + 1) + j - 8 = 8 * k + j by omega]
      exact ih (by simpa using hb)

/-- Byte `k` of the buffer starts at bit `10 + 8 * k` of a render (R37). -/
theorem render_getElem? {mask : Byte} {bytes : List Byte} {k j : Nat} {b : Byte} (hb : bytes[k]? = some b) (hj : j < 8) :
    (dataLevels (transaction cfg mask (writeRamFrame cfg bytes)))[10 + 8 * k + j]? = some (b.getLsbD (7 - j)) := by
  have hlen : (msbFirst (cfg.idWr.setWidth 8) 3 ++ msbFirst 0 7).length = 10 := by
    rw [List.length_append, msbFirst_length, msbFirst_length]
  rw [dataLevels_render, List.getElem?_append_right (by omega), hlen, show 10 + 8 * k + j - 10 = 8 * k + j by omega]
  exact dataBits_getElem? hb hj

/-- RENDER in a ready state with a valid target sends the buffer to the target and does nothing else (R78). -/
theorem State.Ready.exec_render (hs : s.Ready) (ht : s.activeTarget.toNat < s.cfg.numChips) :
    exec .render s = .next (s.emit
      (transaction s.cfg (chipMask s.activeTarget.toNat) (writeRamFrame s.cfg (s.fb.map Prod.snd)))) := by
  simp only [exec, execRender, afterInit_running hs.config hs.clean hs.started, if_neg (Nat.not_le.mpr ht),
    renderTo_next hs.buffer]

end bits

/-! ## The obligations -/

/-- Settles O28: each operation's body is `Repeatable`, by the pixels it leaves as switched, the bytes it leaves written or
the register it leaves set, and the common checks pass in both runs. -/
theorem bufferOperationsAreIdempotent : Obligations.BufferOperationsAreIdempotent := by
  intro s i hs hi
  cases i with
  | setPixel x y => exact (plotPixel_repeatable true x y).afterInit hs
  | clearPixel x y => exact (plotPixel_repeatable false x y).afterInit hs
  | writePixel x y v => exact (plotPixel_repeatable (v != 0) x y).afterInit hs
  | setColumn position v => exact (plotColumn_repeatable position v).afterInit hs
  | fill => exact (fillActive_repeatable 0xFF).afterInit hs
  | clear => exact zeroBuffer_repeatable.afterInit hs
  | selectChannel k => exact (selectChannel_repeatable k).afterInit hs
  | getPixel x y => exact (readPixel_repeatable x y).afterInit hs
  | _ => simp [isBufferOperation] at hi

/-- Settles O34: a render sends byte `c * LEN + offset` of the buffer from bit 7 to bit 0 (`render_getElem?`), and the
translator puts pixel `(x, y)` at bit `7 - x mod 8` of that byte. -/
theorem renderSendsPixelsInColumnOrder : Obligations.RenderSendsPixelsInColumnOrder := by
  intro s c x y p hs htarget hc hp
  obtain ⟨-, -, -, hbit, -, hlen⟩ := translate_some hs.config hp
  obtain ⟨b, hb⟩ := hs.read hc hlen
  refine ⟨_, _, b, hs.exec_render htarget, rfl, (byteAt_of_lt hc hlen).trans hb, ?_⟩
  rw [hbit]
  exact render_getElem? ((hs.bytes_getElem? (fbAddr_lt hc hlen)).trans hb) (Nat.mod_lt _ (by decide))

end Sys2Proof.Machine
end

-- ==== The encoding (spec/30_encoding.md): proofs ====
section
/-! SUPPORT. Which words decode and to what (R43 to R46), what the assembler takes (R53, R54), and that a word never stops
the block in a run from reset (R13, R25, R47). -/

namespace Sys2Proof

open Sys2Proof.Machine Sys2Proof.Statement

section words

variable {w : OpWord} {op : BitVec 4} {a b c : Byte} {i j : Instr} {n : Nat} {row : String × OpWord × OpWord}

/-! ## Decoding and encoding (R43, R45) -/

theorem decode_eq_ok_iff : decode w = .ok i ↔
    fieldReserved w = 0 ∧ decodeRow (fieldOp w).toNat (fieldA w) (fieldB w) (fieldC w) = .ok i := by
  unfold decode
  by_cases hr : fieldReserved w = 0
  · simp [hr]
  · simp only [bne_iff_ne.mpr hr, if_true, hr, false_and, reduceCtorEq]

/-- A word made from fields decodes by the row of its operation code. -/
theorem decode_wordOf (op : BitVec 4) (a b c : Byte) : decode (wordOf op a b c) = decodeRow op.toNat a b c := by
  simp [decode, fieldReserved_wordOf, fieldOp_wordOf, fieldA_wordOf, fieldB_wordOf, fieldC_wordOf]

/-- An operation's own row takes its operands, and finds the fields that the row marks 0 to be 0. -/
theorem decode_encode (i : Instr) : decode (encode i) = .ok i := by
  cases i <;> exact (decode_wordOf _ _ _ _).trans rfl

/-- A row that checks its unused fields answers its own operation, and only where they are 0. -/
theorem encode_of_ifUnusedZero {zero : Bool} (henc : zero = true → encode i = w) (h : ifUnusedZero zero i = .ok j) :
    encode j = w := by
  obtain ⟨hzero, rfl⟩ := ifUnusedZero_eq_ok.mp h
  exact henc hzero

/-- A row reads exactly the fields from which its operation's word is made. -/
theorem encode_of_decodeRow (h : decodeRow n a b c = .ok i) : encode i = wordOf (BitVec.ofNat 4 n) a b c := by
  unfold decodeRow at h
  split at h
  case h_7 =>
    obtain rfl := Except.ok.inj h
    rfl
  case h_16 => cases h
  all_goals exact encode_of_ifUnusedZero (by simp +contextual [encode]) h

/-- A word that decodes is the word of the operation it decodes to. -/
theorem encode_of_decode (h : decode w = .ok i) : encode i = w := by
  obtain ⟨hr, hrow⟩ := decode_eq_ok_iff.mp h
  rw [encode_of_decodeRow hrow, BitVec.ofNat_toNat, BitVec.setWidth_eq, wordOf_fields hr]

/-! ## The rows of the opcode map (R45) -/

/-- A row's match has its operation code and no other bit; its mask has `OP`, bits 27:24 and the fields the row marks 0. -/
theorem opcodeMap_fields : ∀ row ∈ opcodeMap,
    fieldOp row.2.2 = 15#4 ∧ fieldReserved row.2.2 = 15#4 ∧
      fieldA row.2.2 = fieldA (zeroFields (fieldOp row.2.1)) ∧ fieldB row.2.2 = fieldB (zeroFields (fieldOp row.2.1)) ∧
      fieldC row.2.2 = fieldC (zeroFields (fieldOp row.2.1)) ∧
      fieldReserved row.2.1 = 0 ∧ fieldA row.2.1 = 0 ∧ fieldB row.2.1 = 0 ∧ fieldC row.2.1 = 0 := by
  decide

/-- Each operation code but the reserved 0 has a row. -/
theorem exists_row_iff (op : BitVec 4) : (∃ row ∈ opcodeMap, fieldOp row.2.1 = op) ↔ op ≠ 0 := by
  decide +revert

/-- No operation code has two rows. -/
theorem opcodeMap_fieldOp_nodup : (opcodeMap.map fun row => fieldOp row.2.1).Nodup := by
  decide

/-- The fields a row marks 0 are operand fields. -/
theorem zeroFields_head (op : BitVec 4) : fieldOp (zeroFields op) = 0 ∧ fieldReserved (zeroFields op) = 0 := by
  decide +revert

/-- The fields a row marks 0 are 0, operand by operand. -/
theorem and_zeroFields_eq_zero_iff : w &&& zeroFields op = 0 ↔
    fieldA w &&& fieldA (zeroFields op) = 0 ∧ fieldB w &&& fieldB (zeroFields op) = 0 ∧
      fieldC w &&& fieldC (zeroFields op) = 0 := by
  obtain ⟨ho, hr⟩ := zeroFields_head op
  rw [masked_eq_iff, ho, hr]
  exact ⟨fun ⟨_, _, hfields⟩ => hfields, fun hfields => ⟨BitVec.and_zero, BitVec.and_zero, hfields⟩⟩

/-- A word matches a row if it has the row's operation code, and bits 27:24 and the fields the row marks 0 are 0. -/
theorem matches_row_iff (h : row ∈ opcodeMap) : w &&& row.2.2 = row.2.1 ↔
    fieldOp w = fieldOp row.2.1 ∧ fieldReserved w = 0 ∧ w &&& zeroFields (fieldOp w) = 0 := by
  obtain ⟨hok, hrk, hak, hbk, hck, hrm, ham, hbm, hcm⟩ := opcodeMap_fields row h
  have hall : ∀ x : BitVec 4, x &&& 15#4 = x := fun x => BitVec.and_allOnes
  rw [masked_eq_iff, hok, hrk, hak, hbk, hck, hrm, ham, hbm, hcm, hall, hall, ← and_zeroFields_eq_zero_iff]
  exact and_congr_right fun ho => by rw [ho]

/-- The word of an operation matches the row of its mnemonic. -/
theorem encode_matches_row (i : Instr) :
    ∃ row ∈ opcodeMap, row.1 = i.mnemonic ∧ encode i &&& row.2.2 = row.2.1 := by
  refine ⟨(i.mnemonic, Laws.rowOf i), by cases i <;> simp [opcodeMap, Laws.rowOf, Instr.mnemonic], rfl, ?_⟩
  cases i with
  | init => exact Laws.EncodeMatchesRow.init
  | select mask => exact Laws.EncodeMatchesRow.select mask
  | writeBits value count => exact Laws.EncodeMatchesRow.writeBits value count
  | writeSingleBit => exact Laws.EncodeMatchesRow.writeSingleBit
  | setPixel x y => exact Laws.EncodeMatchesRow.setPixel x y
  | clearPixel x y => exact Laws.EncodeMatchesRow.clearPixel x y
  | writePixel x y value => exact Laws.EncodeMatchesRow.writePixel x y value
  | setColumn position byteValue => exact Laws.EncodeMatchesRow.setColumn position byteValue
  | fill => exact Laws.EncodeMatchesRow.fill
  | clear => exact Laws.EncodeMatchesRow.clear
  | render => exact Laws.EncodeMatchesRow.render
  | setBrightness level mask => exact Laws.EncodeMatchesRow.setBrightness level mask
  | selectTarget target => exact Laws.EncodeMatchesRow.selectTarget target
  | selectChannel channel => exact Laws.EncodeMatchesRow.selectChannel channel
  | getPixel x y => exact Laws.EncodeMatchesRow.getPixel x y

theorem matches_row_of_decode (h : decode w = .ok i) :
    ∃ row ∈ opcodeMap, row.1 = i.mnemonic ∧ w &&& row.2.2 = row.2.1 :=
  encode_of_decode h ▸ encode_matches_row i

/-- Two rows that match one word have its operation code, so they are one row. -/
theorem row_eq_of_matches {q : String × OpWord × OpWord} (hrow : row ∈ opcodeMap) (hq : q ∈ opcodeMap)
    (hwrow : w &&& row.2.2 = row.2.1) (hwq : w &&& q.2.2 = q.2.1) : row = q := by
  obtain ⟨hop, -⟩ := (matches_row_iff hrow).mp hwrow
  obtain ⟨hopq, -⟩ := (matches_row_iff hq).mp hwq
  exact List.inj_on_of_nodup_map opcodeMap_fieldOp_nodup hrow hq (hop.symm.trans hopq)

/-! ## Legal words (R46) -/

/-- A word is legal exactly where a row matches it. -/
theorem not_illegalWord_iff : ¬ IllegalWord w ↔ ∃ row ∈ opcodeMap, w &&& row.2.2 = row.2.1 := by
  simp only [IllegalWord, not_or, not_not]
  constructor
  · rintro ⟨hop, hrest⟩
    obtain ⟨row, hrow, hrowop⟩ := (exists_row_iff _).mpr hop
    exact ⟨row, hrow, (matches_row_iff hrow).mpr ⟨hrowop.symm, hrest⟩⟩
  · rintro ⟨row, hrow, hw⟩
    obtain ⟨hop, hrest⟩ := (matches_row_iff hrow).mp hw
    exact ⟨(exists_row_iff _).mp ⟨row, hrow, hop.symm⟩, hrest⟩

/-- Each of the fifteen rows decodes where the fields it marks 0 are 0. -/
theorem decodeRow_completes (hn : n < 16) (hop : n ≠ 0) (ha : a &&& fieldA (zeroFields (BitVec.ofNat 4 n)) = 0)
    (hb : b &&& fieldB (zeroFields (BitVec.ofNat 4 n)) = 0) (hc : c &&& fieldC (zeroFields (BitVec.ofNat 4 n)) = 0) :
    ∃ i, decodeRow n a b c = .ok i := by
  have hmarked : ∀ x : Byte, x &&& 0xFF#8 = x := fun x => BitVec.and_allOnes
  interval_cases n <;> simp_all [zeroFields, fieldA, fieldB, fieldC, decodeRow, ifUnusedZero]

/-- A word decodes exactly where it is legal. -/
theorem decodes_iff_legal : (∃ i, decode w = .ok i) ↔ ¬ IllegalWord w := by
  constructor
  · rintro ⟨i, h⟩
    obtain ⟨row, hrow, -, hw⟩ := matches_row_of_decode h
    exact not_illegalWord_iff.mpr ⟨row, hrow, hw⟩
  · intro h
    simp only [IllegalWord, not_or, not_not, and_zeroFields_eq_zero_iff] at h
    obtain ⟨hop, hr, ha, hb, hc⟩ := h
    have hcode : BitVec.ofNat 4 (fieldOp w).toNat = fieldOp w := by simp
    obtain ⟨i, hi⟩ := decodeRow_completes (fieldOp w).isLt (by simpa [BitVec.toNat_eq] using hop)
      (hcode.symm ▸ ha) (hcode.symm ▸ hb) (hcode.symm ▸ hc)
    exact ⟨i, decode_eq_ok_iff.mpr ⟨hr, hi⟩⟩

theorem decode_of_illegalWord (h : IllegalWord w) : ∃ r, decode w = .error r := by
  cases hd : decode w with
  | error r => exact ⟨r, rfl⟩
  | ok i => exact absurd h (decodes_iff_legal.mp ⟨i, hd⟩)

/-- A clean block raises `ILLEGAL_OP` for an illegal word, and nothing else happens (R46, R92). -/
theorem executeWord_illegal {s : State} (hw : s.cfg.wellFormed = true) (hf : s.faulted = false) (h : IllegalWord w) :
    executeWord w s = .next (s.raiseFault .illegalOp) := by
  obtain ⟨r, hr⟩ := decode_of_illegalWord h
  exact executeWord_error hw hf hr

end words

/-! ## The obligations on words -/

/-- Settles O1: `decode_encode`. -/
theorem decodeEncodeRoundTrip : Obligations.DecodeEncodeRoundTrip := decode_encode

/-- Settles O2: `encode_of_decode`. -/
theorem encodeDecodeRoundTrip : Obligations.EncodeDecodeRoundTrip := fun _ _ => encode_of_decode

/-- Settles O4: a word that decodes matches the row of its operation; a word that matches a row is legal, so it decodes, and
the row of the operation it decodes to is that row, since no two rows match it. -/
theorem decoderFollowsOpcodeMap : Obligations.DecoderFollowsOpcodeMap := by
  refine ⟨fun w i => matches_row_of_decode, fun w row hrow hw => ?_, fun w r hr q hq => row_eq_of_matches hr hq⟩
  obtain ⟨i, hi⟩ := decodes_iff_legal.mpr (not_illegalWord_iff.mpr ⟨row, hrow, hw⟩)
  obtain ⟨q, hq, hname, hwq⟩ := matches_row_of_decode hi
  exact ⟨i, hi, by rw [← hname, row_eq_of_matches hrow hq hw hwq]⟩

/-- Settles O5: an illegal word raises `ILLEGAL_OP` (`executeWord_illegal`), and exactly the legal words decode. -/
theorem illegalWordRaisesIllegalOp : Obligations.IllegalWordRaisesIllegalOp := by
  refine ⟨fun s w hw hf h => ?_, fun w => decodes_iff_legal.mpr⟩
  exact ⟨_, executeWord_illegal hw hf h, rfl, raiseFault_faulted s _, raiseFault_causeCode s _, raiseFault_initDone s _,
    raiseFault_statusReserved s _⟩

/-- Settles O3: the lines of R55 through the assembler, and their words through the decoder, evaluated. -/
theorem workedEncodings : Obligations.WorkedEncodings := by
  refine ⟨rfl, rfl, rfl, rfl, rfl, rfl, ?_⟩
  exact ⟨decode_encode (.setPixel 31 7), decode_encode (.setBrightness 8 3), decode_encode (.setBrightness 16 0x10),
    decode_encode (.writeBits 5 3), decode_encode (.select 0), decode_encode .render⟩

end Sys2Proof

namespace Sys2Proof.Machine

open Sys2Proof.Statement

section assembler

variable {cfg : Config} {m : String} {ops : List Operand} {a b : Byte} {i : Instr}

/-! ## The assembler (R53, R54) -/

theorem assemble_mnemonic (cfg : Config) (i : Instr) : assemble cfg i.mnemonic (operandsOf i) = some i := by
  cases i <;> rfl

theorem assembleNone_eq_some (h : assembleNone m = some i) :
    (m = i.mnemonic ∧ operandsOf i = []) ∨ (m = "DESELECT" ∧ i = .select 0) := by
  unfold assembleNone at h
  split_ifs at h <;> obtain rfl := Option.some.inj h <;> simp_all [Instr.mnemonic, operandsOf]

theorem assembleOne_eq_some (h : assembleOne m a = some i) : m = i.mnemonic ∧ operandsOf i = [.num a] := by
  unfold assembleOne at h
  split_ifs at h <;> obtain rfl := Option.some.inj h <;> exact ⟨‹_›, rfl⟩

theorem assembleTwo_eq_some (h : assembleTwo m a b = some i) : m = i.mnemonic ∧ operandsOf i = [.num a, .num b] := by
  unfold assembleTwo at h
  split_ifs at h <;> obtain rfl := Option.some.inj h <;> exact ⟨‹_›, rfl⟩

/-- What assembles is an operation with its operands, or one of the two pseudo-instructions. -/
theorem assemble_eq_some (h : assemble cfg m ops = some i) :
    (m = i.mnemonic ∧ ops = operandsOf i) ∨
    (m = "SET_BRIGHTNESS" ∧ ∃ level, ops = [.num level, .current] ∧ i = .setBrightness level cfg.currentTarget) ∨
    (m = "DESELECT" ∧ ops = [] ∧ i = .select 0) := by
  unfold assemble at h
  split at h
  · obtain ⟨hm, hops⟩ | ⟨hm, hi⟩ := assembleNone_eq_some h
    · exact .inl ⟨hm, hops.symm⟩
    · exact .inr (.inr ⟨hm, rfl, hi⟩)
  · obtain ⟨hm, hops⟩ := assembleOne_eq_some h
    exact .inl ⟨hm, hops.symm⟩
  · obtain ⟨hm, hops⟩ := assembleTwo_eq_some h
    exact .inl ⟨hm, hops.symm⟩
  · obtain ⟨hm, hi⟩ := Option.ite_none_right_eq_some.mp h
    obtain rfl := Option.some.inj hi
    exact .inl ⟨hm, rfl⟩
  · obtain ⟨hm, hi⟩ := Option.ite_none_right_eq_some.mp h
    exact .inr (.inl ⟨hm, _, rfl, (Option.some.inj hi).symm⟩)
  · cases h

/-- `DESELECT` is no operation's mnemonic, so with an operand it does not assemble. -/
theorem assemble_deselect (cfg : Config) (ops : List Operand) :
    assemble cfg "DESELECT" ops = if ops = [] then some (.select 0) else none := by
  by_cases hops : ops = []
  · subst hops
    rfl
  · rw [if_neg hops]
    refine Option.eq_none_iff_forall_ne_some.mpr fun i h => ?_
    obtain ⟨hm, -⟩ | ⟨hm, -⟩ | ⟨-, hnil, -⟩ := assemble_eq_some h
    · cases i <;> simp [Instr.mnemonic] at hm
    · simp at hm
    · exact hops hnil

end assembler

/-! ## Completion -/

section completion

variable {w : OpWord} {i : Instr} {s : State}

/-- After INIT a state of the invariant that has not faulted is ready. -/
theorem State.Inv.ready (h : s.Inv) (hf : s.faulted = false) (hi : s.initDone = true) : s.Ready :=
  { config := h.config, clean := hf, started := hi, channel := h.channel, buffer := h.buffer hi }

/-- Every operation completes in a ready state: what reads the buffer finds every byte (R25), and nothing else can stop. -/
theorem State.Ready.exec_completes (hs : s.Ready) (i : Instr) : ∃ t, exec i s = .next t := by
  have hrun := fun body => afterInit_running (body := body) hs.config hs.clean hs.started
  by_cases hbuffer : isBufferOperation i = true
  · obtain ⟨t, ht, -⟩ := bufferOperationsAreIdempotent s i hs hbuffer
    exact ⟨t, ht⟩
  · cases i with
    | init => exact ⟨_, onceOnly_again hs.config hs.clean hs.started⟩
    | select mask => simp [exec, execSelect, hrun]
    | writeSingleBit => simp [exec, execWriteSingleBit, hrun]
    | selectTarget k => simp [exec, execSelectTarget, hrun]
    | writeBits v n =>
      simp only [exec, execWriteBits, hrun]
      split <;> exact ⟨_, rfl⟩
    | setBrightness level mask =>
      simp only [exec, execSetBrightness, hrun]
      split <;> exact ⟨_, rfl⟩
    | render =>
      simp only [exec, execRender, hrun]
      split
      · exact ⟨s, rfl⟩
      · exact ⟨_, renderTo_next hs.buffer⟩
    | _ => exact absurd rfl hbuffer

/-- Every operation completes in a state of the invariant: before INIT it raises a fault or is INIT (R82, R92). -/
theorem State.Inv.exec_completes (h : s.Inv) (hf : s.faulted = false) (i : Instr) :
    ∃ t, Machine.exec i s = .next t := by
  cases hi : s.initDone with
  | true => exact (h.ready hf hi).exec_completes i
  | false =>
    by_cases hinit : i = .init
    · exact ⟨_, hinit ▸ exec_init h.config hf hi⟩
    · obtain ⟨body, hbody⟩ := exec_afterInit hinit
      exact ⟨_, (hbody s).trans (afterInit_tooEarly h.config hf hi)⟩

/-- Every word completes in a state of the invariant (R92). -/
theorem State.Inv.executeWord_completes (h : s.Inv) (w : OpWord) : ∃ t, Machine.executeWord w s = .next t := by
  cases hf : s.faulted with
  | true => exact ⟨s, unlessHalted_halted h.config hf⟩
  | false =>
    cases hd : decode w with
    | error r => exact ⟨_, executeWord_error h.config hf hd⟩
    | ok i =>
      obtain ⟨t, ht⟩ := h.exec_completes hf i
      exact ⟨t, (executeWord_ok h.config hf hd).trans ht⟩

/-- With nothing presented the block waits (R103). -/
theorem step_of_nil (hw : s.cfg.wellFormed = true) (hp : s.pending = []) : step s = .next s := by
  simp [step, acceptNext, hw, hp]

/-- A step takes the host's next input and accepts it (R6, R103). -/
theorem step_of_cons {input : HostInput} {rest : List HostInput} (hw : s.cfg.wellFormed = true)
    (hp : s.pending = input :: rest) : step s = acceptInput input { s with pending := rest } := by
  simp [step, acceptNext, hw, hp]

end completion

/-! ## The obligations on the assembler and on steps -/

/-- Settles O6: the lemmas of the assembler, one for each clause. -/
theorem assemblerFollowsOpcodeMap : Obligations.AssemblerFollowsOpcodeMap := fun cfg =>
  ⟨assemble_mnemonic cfg, fun _ _ _ => assemble_eq_some, assemble_deselect cfg, fun _ => rfl⟩

/-- Settles O43: waiting and reset always answer, and a word completes in a state of the invariant, which holds of the
state from which the word has been taken. -/
theorem invariantStatesNeverStop : Obligations.InvariantStatesNeverStop := by
  intro s h
  cases hp : s.pending with
  | nil => exact ⟨s, step_of_nil h.config hp⟩
  | cons input rest =>
    rw [step_of_cons h.config hp]
    cases input with
    | reset => exact ⟨_, rfl⟩
    | word w => exact (h.with_pending rest).executeWord_completes w

end Sys2Proof.Machine
end

-- ==== Pixel addressing (spec/40_pixel_addressing.md): proofs ====
section
/-! SUPPORT. What every operation's statement says of its word and its exceptions (R45, R46, R91), the translator's inverse
(R57), and what the operations on pixels, columns and channels leave in the buffer of a ready state (R58 to R66). -/

namespace Sys2Proof.Machine

open Sys2Proof.Statement

section words

variable {i : Instr} {op : BitVec 4} {a b c : Byte} {zero : OpWord} {n : Nat}

/-! ## Words and exceptions -/

/-- The word made from an operation's fields is the operation's, in both directions (R45). -/
theorem wordIs_of_fields (hword : encode i = wordOf op a b c)
    (hn : n = op.toNat * 2 ^ 28 + a.toNat * 2 ^ 16 + b.toNat * 2 ^ 8 + c.toNat) : WordIs i n := by
  have henc : (encode i).toNat = n := by rw [hword, wordOf_toNat, hn]
  refine ⟨?_, henc⟩
  rw [← henc, BitVec.ofNat_toNat, BitVec.setWidth_eq, decode_encode]

/-- Every operation but INIT needs INIT before it (R91, R92). -/
theorem faultsBeforeInit (hi : i ≠ .init) : FaultsBeforeInit i := by
  obtain ⟨body, hbody⟩ := exec_afterInit hi
  exact fun s hw hf hstart => (hbody s).trans (afterInit_tooEarly hw hf hstart)

/-- A word with a bit set in 27:24 or in a field that its row marks 0 is illegal (R46). -/
theorem faultsOnStrayBits (hzero : zero = 0x0F000000#32 ||| zeroFields op) : FaultsOnStrayBits op zero := by
  intro s w hw hf hop hstray
  refine executeWord_illegal hw hf (.inr ?_)
  by_contra hlegal
  simp only [not_or, not_not, hop] at hlegal
  obtain ⟨hreserved, hunused⟩ := hlegal
  have hhead : w &&& 0x0F000000#32 = 0 := by
    rw [masked_eq_iff, hreserved]
    exact ⟨BitVec.and_zero, rfl, BitVec.and_zero, BitVec.and_zero, BitVec.and_zero⟩
  exact hstray (by rw [hzero, BitVec.and_or_distrib_left, hhead, hunused]; rfl)

end words

section pixels

variable {s t : State} {i : Instr} {on : Bool} {x y v : Byte} {p : PixelAddr} {c k j n : Nat} {b : Byte} {m : Memory}

/-- A running block passes the common checks (R92). -/
theorem State.Running.afterInit_eq (hs : s.Running) (body : State → Answer State) : afterInit body s = body s :=
  afterInit_running hs.config hs.clean hs.started

/-! ## The translator (R57) -/

theorem translate_isSome_iff {cfg : Config} (hw : cfg.wellFormed = true) :
    (∃ p, translatePixel cfg x y = some p) ↔ x.toNat < cfg.outputSize ∧ y.toNat < 8 := by
  constructor
  · rintro ⟨p, hp⟩
    obtain ⟨hx, hy, -⟩ := translate_some hw hp
    exact ⟨hx, hy⟩
  · rintro ⟨hx, hy⟩
    exact ⟨_, translate_valid hw hx hy⟩

/-- The stated inverse gives the coordinate back. -/
theorem translate_inverse {cfg : Config} (hw : cfg.wellFormed = true) (hp : translatePixel cfg x y = some p) :
    x.toNat = 8 * (p.offset / 8) + (7 - p.bitpos) ∧ y.toNat = p.offset % 8 := by
  obtain ⟨-, hy, hoff, hbit, -⟩ := translate_some hw hp
  omega

/-- Two coordinates of one bit are one coordinate. -/
theorem translate_inj {cfg : Config} {x' y' : Byte} {p' : PixelAddr} (hw : cfg.wellFormed = true)
    (hp : translatePixel cfg x y = some p) (hp' : translatePixel cfg x' y' = some p') (hoff : p'.offset = p.offset)
    (hbit : p'.bitpos = p.bitpos) : (x, y) = (x', y') := by
  obtain ⟨hx, hy⟩ := translate_inverse hw hp
  obtain ⟨hx', hy'⟩ := translate_inverse hw hp'
  rw [hoff, hbit] at hx'
  rw [hoff] at hy'
  exact Prod.ext (BitVec.eq_of_toNat_eq (hx.trans hx'.symm)) (BitVec.eq_of_toNat_eq (hy.trans hy'.symm))

/-- Every bit of the channel is some coordinate's, by the stated inverse. -/
theorem translate_surj {cfg : Config} (hw : cfg.wellFormed = true) (hk : k < cfg.len) (hj : j < 8) :
    ∃ (x y : Byte) (p : PixelAddr), translatePixel cfg x y = some p ∧ p.offset = k ∧ p.bitpos = j := by
  obtain ⟨-, -, -, hmod, -, hmax, -⟩ := wellFormed_bounds hw
  rw [len_eq_outputSize hw] at hk
  have hx : (BitVec.ofNat 8 (8 * (k / 8) + (7 - j))).toNat = 8 * (k / 8) + (7 - j) :=
    Nat.mod_eq_of_lt (by omega)
  have hy : (BitVec.ofNat 8 (k % 8)).toNat = k % 8 := Nat.mod_eq_of_lt (by omega)
  refine ⟨_, _, _, translate_valid hw (hx.trans_lt ?_) (hy.trans_lt ?_), ?_, ?_⟩
  · omega
  · omega
  · simp only [hx, hy]
    omega
  · simp only [hx]
    omega

/-! ## One pixel (R58 to R61) -/

/-- Switching a pixel sets its own bit of the byte and keeps the other seven. -/
theorem getLsbD_pixelInto (on : Bool) (b : Byte) (hk : k < 8) (hj : j < 8) :
    (pixelInto on (1#8 <<< k) b).getLsbD j = if j = k then on else b.getLsbD j := by
  have hmask : (1#8 <<< k).getLsbD j = decide (j = k) := by
    simp [← BitVec.twoPow_eq, BitVec.getLsbD_twoPow, hk, eq_comm]
  cases on with
  | true =>
    rw [pixelInto, if_pos rfl, BitVec.getLsbD_or, hmask]
    by_cases hjk : j = k <;> simp [hjk]
  | false =>
    rw [pixelInto, if_neg (by decide), BitVec.getLsbD_and, BitVec.getLsbD_not, hmask]
    by_cases hjk : j = k <;> simp [hjk, hj]

theorem byteAt_with_fb (hc : c < s.cfg.channelCount) (hk : k < s.cfg.len) (m : Memory) :
    State.byteAt { s with fb := m } c k = Memory.read (fbAddr s.cfg c k) m := if_pos ⟨hc, hk⟩

/-- A byte reads as before where its address does; a byte that does not exist has no value before or after. -/
theorem byteAt_congr (h : c < s.cfg.channelCount → k < s.cfg.len →
    Memory.read (fbAddr s.cfg c k) m = Memory.read (fbAddr s.cfg c k) s.fb) :
    State.byteAt { s with fb := m } c k = s.byteAt c k := by
  simp only [State.byteAt]
  split
  · rename_i hlt
    exact h hlt.1 hlt.2
  · rfl

/-- A valid coordinate's byte holds a value, and switching the pixel is one write to it (R32). -/
theorem State.Ready.plotPixel_next (hs : s.Ready) (hp : translatePixel s.cfg x y = some p) (on : Bool) :
    ∃ b, Memory.read (fbAddr s.cfg s.activeChannel.toNat p.offset) s.fb = some b ∧
      plotPixel on x y s = .next { s with
        fb := Memory.write (fbAddr s.cfg s.activeChannel.toNat p.offset) (pixelInto on p.mask b) s.fb } := by
  obtain ⟨-, -, -, -, -, hlen⟩ := translate_some hs.config hp
  obtain ⟨b, hb⟩ := hs.read hs.channel hlen
  exact ⟨b, hb, (plotPixel_valid hp).trans (writePixelAt_next hs.channel hlen hb)⟩

/-- SET_PIXEL, CLEAR_PIXEL and WRITE_PIXEL switch one pixel (R58 to R60). -/
theorem plotsPixel {change : Byte → Byte → Byte} (hexec : ∀ s, exec i s = afterInit (plotPixel on x y) s)
    (hchange : ∀ mask b, pixelInto on mask b = change mask b) : PlotsPixel i x y change := by
  intro s hs
  rw [hexec, hs.afterInit_eq]
  refine ⟨fun p hp => ?_, plotPixel_invalid⟩
  obtain ⟨-, -, -, -, -, hlen⟩ := translate_some hs.config hp
  obtain ⟨b, hb, hplot⟩ := hs.plotPixel_next hp on
  refine ⟨_, b, hplot, (byteAt_of_lt hs.channel hlen).trans hb, ?_, fun a ha => Memory.read_write_other ha _ _, rfl⟩
  rw [byteAt_with_fb hs.channel hlen, Memory.read_write_same, hchange]

/-- One bit of a byte, shifted to bit 0 and isolated. -/
theorem shiftRight_and_one (b : Byte) (k : Nat) : (b >>> k) &&& 1#8 = if b.getLsbD k then 1 else 0 := by
  rw [BitVec.and_one_eq_setWidth_ofBool_getLsbD, BitVec.getLsbD_ushiftRight, Nat.add_zero]
  cases b.getLsbD k <;> rfl

/-- GET_PIXEL of a valid coordinate reads the addressed byte, which holds a value, and answers its bit (R61). -/
theorem State.Ready.exec_getPixel (hs : s.Ready) (hp : translatePixel s.cfg x y = some p) :
    ∃ b, s.byteAt s.activeChannel.toNat p.offset = some b ∧
      exec (.getPixel x y) s = .next { s with result := if b.getLsbD p.bitpos then 1 else 0 } := by
  obtain ⟨-, -, -, -, -, hlen⟩ := translate_some hs.config hp
  obtain ⟨b, hb⟩ := hs.read hs.channel hlen
  refine ⟨b, (byteAt_of_lt hs.channel hlen).trans hb, ?_⟩
  simp only [exec, execGetPixel, hs.afterInit_eq, readPixel, hp, fbRead_next hs.channel hlen hb, andThen_next,
    shiftRight_and_one]

/-- GET_PIXEL of any other coordinate (R61). -/
theorem State.Running.exec_getPixel_invalid (hs : s.Running) (hp : translatePixel s.cfg x y = none) :
    exec (.getPixel x y) s = .next { s with result := 0 } := by
  simp only [exec, execGetPixel, hs.afterInit_eq, readPixel, hp]

/-- The pixel at an address of the active channel, if something has written its byte. -/
def State.pixelAt (s : State) (p : PixelAddr) : Option Bool :=
  (s.byteAt s.activeChannel.toNat p.offset).map fun b => b.getLsbD p.bitpos

/-- Every pixel of a ready state has a value, and GET_PIXEL answers it (R61). -/
theorem State.Ready.getPixel_pixelAt (hs : s.Ready) (hp : translatePixel s.cfg x y = some p) :
    ∃ l, s.pixelAt p = some l ∧ exec (.getPixel x y) s = .next { s with result := if l then 1 else 0 } := by
  obtain ⟨b, hb, hget⟩ := hs.exec_getPixel hp
  exact ⟨b.getLsbD p.bitpos, by rw [State.pixelAt, hb, Option.map_some], hget⟩

/-- Switching a pixel of a ready state: the pixel is then as switched, every other pixel is as before (R57). -/
theorem State.Ready.plotPixel_pixelAt {q : PixelAddr} {x' y' : Byte} (hs : s.Ready)
    (hp : translatePixel s.cfg x y = some p) (hq : translatePixel s.cfg x' y' = some q)
    (hplot : plotPixel on x y s = .next t) : t.pixelAt q = if (x, y) = (x', y') then some on else s.pixelAt q := by
  obtain ⟨-, -, -, hbit, hmask, hlen⟩ := translate_some hs.config hp
  obtain ⟨-, -, -, hbit', -, hlen'⟩ := translate_some hs.config hq
  have hsame : (x, y) = (x', y') → q = p := by
    rintro ⟨⟩
    exact Option.some.inj (hq.symm.trans hp)
  obtain ⟨b, hb, hnext⟩ := hs.plotPixel_next hp on
  obtain rfl := Host.Outcome.next.inj (hnext.symm.trans hplot)
  simp only [State.pixelAt, byteAt_with_fb hs.channel hlen']
  by_cases hoff : q.offset = p.offset
  · have hcoord : (x, y) = (x', y') ↔ q.bitpos = p.bitpos :=
      ⟨fun h => by rw [hsame h], translate_inj hs.config hp hq hoff⟩
    simp only [hoff, Memory.read_write_same, hb, Option.map_some, hmask, hcoord]
    rw [getLsbD_pixelInto on b (by omega) (by omega)]
    split <;> rfl
  · have haddr : fbAddr s.cfg s.activeChannel.toNat q.offset ≠ fbAddr s.cfg s.activeChannel.toNat p.offset :=
      fun h => hoff (fbAddr_inj hlen' hlen h).2
    have hne : (x, y) ≠ (x', y') := fun h => hoff (by rw [hsame h])
    rw [Memory.read_write_other haddr, if_neg hne]

/-! ## A column (R62) -/

theorem rowOffset_lt {cfg : Config} (hw : cfg.wellFormed = true) (hx : x.toNat < cfg.outputSize) (hn : n < 8) :
    8 * (x.toNat / 8) + n < cfg.len := by
  obtain ⟨-, -, -, hmod, -⟩ := wellFormed_bounds hw
  rw [len_eq_outputSize hw]
  omega

/-- The address of the byte with row `y` of a column of the active channel (R56). -/
def State.rowAddr (s : State) (position : Byte) (y : Nat) : Nat :=
  fbAddr s.cfg s.activeChannel.toNat (8 * (position.toNat / 8) + y)

theorem rowAddr_inj {y y' : Nat} : s.rowAddr x y = s.rowAddr x y' ↔ y = y' := by
  simp [State.rowAddr, fbAddr]

/-- Row `y` of a column in range is one pixel, switched by one write to the row's byte. -/
theorem State.Ready.plotPixel_row (hs : s.Ready) (hx : x.toNat < s.cfg.outputSize) (hn : n < 8) (on : Bool) :
    ∃ b, Memory.read (s.rowAddr x n) s.fb = some b ∧ plotPixel on x (BitVec.ofNat 8 n) s = .next { s with
      fb := Memory.write (s.rowAddr x n) (pixelInto on (1#8 <<< (7 - x.toNat % 8)) b) s.fb } := by
  have hy : (BitVec.ofNat 8 n).toNat = n := Nat.mod_eq_of_lt (by omega)
  have hp := translate_valid hs.config hx (hy.trans_lt hn)
  rw [hy, Nat.add_comm] at hp
  exact hs.plotPixel_next hp on

/-- What the passes over the first `n` rows of a column leave in the buffer of a ready state: the column's bit switched in
the bytes of those rows, and every other address as before. -/
structure ColumnPlotted (n : Nat) (position v : Byte) (s : State) (m : Memory) : Prop where
  ready : State.Ready { s with fb := m }
  rows : ∀ y < n, ∃ b, Memory.read (s.rowAddr position y) s.fb = some b ∧
    Memory.read (s.rowAddr position y) m = some (pixelInto (v.getLsbD y) (1#8 <<< (7 - position.toNat % 8)) b)
  kept : KeptOutside s { s with fb := m } fun a => ∃ y < n, a = s.rowAddr position y

/-- One more pass: the rows are in different bytes, so it finds its own as it was before the loop. -/
theorem ColumnPlotted.plotPixel_next (h : ColumnPlotted n x v s m) (hx : x.toNat < s.cfg.outputSize) (hn : n < 8) :
    ∃ m', plotPixel (v.getLsbD n) x (BitVec.ofNat 8 n) { s with fb := m } = .next { s with fb := m' } ∧
      ColumnPlotted (n + 1) x v s m' := by
  obtain ⟨b, hb, hplot⟩ := h.ready.plotPixel_row hx hn (v.getLsbD n)
  refine ⟨_, hplot, plotPixel_ready h.ready hplot, fun y hy => ?_, fun a ha => ?_⟩
  · obtain rfl | hlt := Nat.eq_or_lt_of_le (Nat.le_of_lt_succ hy)
    · have hfresh : ¬ ∃ y' < y, s.rowAddr x y = s.rowAddr x y' := by
        simp only [rowAddr_inj]
        omega
      exact ⟨b, (h.kept _ hfresh).symm.trans hb, Memory.read_write_same _ _ _⟩
    · obtain ⟨b', hb', hb''⟩ := h.rows y hlt
      exact ⟨b', hb', (Memory.read_write_other (fun e => hlt.ne (rowAddr_inj.mp e)) _ _).trans hb''⟩
  · have hother : ¬ ∃ y < n, a = s.rowAddr x y := fun ⟨y, hy, e⟩ => ha ⟨y, Nat.lt_succ_of_lt hy, e⟩
    exact (Memory.read_write_other (fun e => ha ⟨n, n.lt_succ_self, e⟩) _ _).trans (h.kept a hother)

/-- The loop over the rows of a column in range. -/
theorem State.Ready.plotRows (hs : s.Ready) (hx : x.toNat < s.cfg.outputSize) (v : Byte) (hn : n ≤ 8) :
    ∃ m, forEach (fun y => plotPixel (v.getLsbD y) x (BitVec.ofNat 8 y)) (List.range n) s = .next { s with fb := m } ∧
      ColumnPlotted n x v s m := by
  induction n with
  | zero => exact ⟨s.fb, rfl, hs, by simp, fun _ _ => rfl⟩
  | succ n ih =>
    obtain ⟨m, hm, hcol⟩ := ih (Nat.le_of_succ_le hn)
    obtain ⟨m', hm', hnext⟩ := hcol.plotPixel_next hx hn
    refine ⟨m', ?_, hnext⟩
    rw [List.range_succ, forEach_append, hm, andThen_next, forEach_cons, hm', andThen_next, forEach_nil]

/-! ## No pin (R66) -/

theorem drivesWire_of_bufferOperation (h : isBufferOperation i = true) : i ≠ .init ∧ drivesWire i = false := by
  cases i <;> simp_all [isBufferOperation, drivesWire]

end pixels

/-! ## The obligations -/

/-- Settles O16: `translate_inverse` and `translate_surj`, with the bounds of `translate_some`. -/
theorem translationIsBijection : Obligations.TranslationIsBijection := by
  intro cfg hw
  refine ⟨fun x y p hp => ?_, fun x y => translate_isSome_iff hw, fun _ _ => translate_surj hw⟩
  obtain ⟨hx, hy⟩ := translate_inverse hw hp
  obtain ⟨-, -, -, hbit, hmask, hlen⟩ := translate_some hw hp
  exact ⟨hlen, by omega, hx, hy, hmask⟩

/-- Settles O17: switching a pixel on (`plotsPixel`). -/
theorem setPixel : Obligations.SetPixel :=
  ⟨fun x y => wordIs_of_fields rfl (by simp), fun x y => plotsPixel (fun _ => rfl) fun _ _ => rfl,
    fun x y => faultsBeforeInit (by simp), faultsOnStrayBits (by decide)⟩

/-- Settles O18: switching a pixel off (`plotsPixel`). -/
theorem clearPixel : Obligations.ClearPixel :=
  ⟨fun x y => wordIs_of_fields rfl (by simp), fun x y => plotsPixel (fun _ => rfl) fun _ _ => rfl,
    fun x y => faultsBeforeInit (by simp), faultsOnStrayBits (by decide)⟩

/-- Settles O19: switching a pixel on for a nonzero value and off for 0 (`plotsPixel`). -/
theorem writePixel : Obligations.WritePixel :=
  ⟨fun x y v => wordIs_of_fields rfl (by simp),
    fun x y v => plotsPixel (fun _ => rfl) fun mask b => by simp [pixelInto],
    fun x y v => faultsBeforeInit (by simp), faultsOnStrayBits (by decide)⟩

/-- Settles O20: a valid coordinate's byte is read and its bit isolated, any other coordinate reads as 0. -/
theorem getPixel : Obligations.GetPixel :=
  ⟨fun x y => wordIs_of_fields rfl (by simp), fun _ _ _ hs => ⟨fun _ => hs.exec_getPixel, hs.exec_getPixel_invalid⟩,
    fun x y => faultsBeforeInit (by simp), faultsOnStrayBits (by decide)⟩

/-- Settles O21: the loop over the eight rows of the column (`plotRows`). -/
theorem setColumn : Obligations.SetColumn := by
  refine ⟨fun a b => wordIs_of_fields rfl (by simp), fun s a v hs => ?_, fun a v => faultsBeforeInit (by simp),
    faultsOnStrayBits (by decide)⟩
  have hexec : exec (.setColumn a v) s = plotColumn a v s := hs.afterInit_eq _
  rw [hexec]
  refine ⟨fun ha => ?_, fun ha => if_pos ha⟩
  obtain ⟨m, hm, hcol⟩ := hs.plotRows ha v (Nat.le_refl 8)
  refine ⟨_, (if_neg (Nat.not_le.mpr ha)).trans hm, fun y hy => ?_, hcol.kept, rfl⟩
  have hlen := rowOffset_lt hs.config ha hy
  obtain ⟨b, hb, hb'⟩ := hcol.rows y hy
  exact ⟨b, (byteAt_of_lt hs.channel hlen).trans hb, (byteAt_with_fb hs.channel hlen m).trans hb'⟩

/-- Settles O22: the loop writes 0xFF to the addresses of the active channel and to no other, and no other channel has one of
them (`fbAddr_inj`). -/
theorem fillSetsActiveChannel : Obligations.FillSetsActiveChannel := by
  refine ⟨wordIs_of_fields rfl (by simp), fun s hs => ?_, faultsBeforeInit (by simp), faultsOnStrayBits (by decide)⟩
  have hexec : exec .fill s = fillChannel 0xFF s.activeChannel.toNat s := hs.afterInit_eq _
  refine ⟨_, hexec.trans (fillChannel_next hs.channel), fun k hk => ?_, fun a ha => ?_, fun c k hc => ?_, rfl⟩
  · rw [byteAt_with_fb hs.channel hk]
    exact Memory.read_writeAll_mem _ (List.mem_map_of_mem (List.mem_range.mpr hk)) _
  · refine Memory.read_writeAll_other _ (fun hmem => ha ?_) _
    simpa [eq_comm] using hmem
  · refine byteAt_congr fun _ hk => Memory.read_writeAll_other _ (fun hmem => hc ?_) _
    obtain ⟨k', hk', haddr⟩ := List.mem_map.mp hmem
    exact (fbAddr_inj (List.mem_range.mp hk') hk haddr).1.symm

/-- Settles O23: the loops write 0 to the addresses of the buffer, each of which is a byte's (`exists_fbAddr`). -/
theorem clearZeroesEveryChannel : Obligations.ClearZeroesEveryChannel := by
  refine ⟨wordIs_of_fields rfl (by simp), fun s hs => ?_, faultsBeforeInit (by simp), faultsOnStrayBits (by decide)⟩
  have hexec : exec .clear s = zeroBuffer s := hs.afterInit_eq _
  refine ⟨_, hexec.trans (zeroBuffer_next s), fun c k hc hk => ?_, fun a ha => ?_, rfl⟩
  · rw [byteAt_with_fb hc hk]
    exact Memory.read_writeAll_mem 0 (List.mem_range.mpr (fbAddr_lt hc hk)) _
  · refine Memory.read_writeAll_other 0 (fun hmem => ha ?_) _
    obtain ⟨c, k, hc, hk, haddr⟩ := exists_fbAddr (List.mem_range.mp hmem)
    exact ⟨c, k, hc, hk, haddr.symm⟩

/-- Settles O24: past the common checks the operation is the test of the channel's number. -/
theorem selectChannel : Obligations.SelectChannel := by
  refine ⟨fun c => wordIs_of_fields rfl (by simp), fun s c hs => ?_, fun c => faultsBeforeInit (by simp),
    faultsOnStrayBits (by decide)⟩
  have hexec := hs.afterInit_eq fun s =>
    if s.cfg.channelCount ≤ c.toNat then .next s else .next { s with activeChannel := c }
  exact ⟨fun hc => hexec.trans (if_neg (Nat.not_le.mpr hc)), fun hc => hexec.trans (if_pos hc)⟩

/-- Settles O25: only INIT and the operations that drive pins append events, and an operation that appends none moves no
pin. -/
theorem bufferOperationsDriveNoPin : Obligations.BufferOperationsDriveNoPin := by
  intro s t i hi hexec
  obtain ⟨hinit, hdrives⟩ := drivesWire_of_bufferOperation hi
  have htrace : t.trace = s.trace := by
    by_contra hne
    obtain ⟨h, -⟩ | h := exec_wire_of_trace hexec hne
    · exact hinit h
    · simp [hdrives] at h
  exact ⟨exec_pins_of_trace hexec htrace, htrace⟩

/-- Settles O26: the pixel written is as switched (`plotPixel_pixelAt`). -/
theorem pixelReadsBackLastWrite : Obligations.PixelReadsBackLastWrite := by
  intro s x y v hs hx hy
  obtain ⟨p, hp⟩ := (translate_isSome_iff hs.config).mpr ⟨hx, hy⟩
  obtain ⟨b, -, hplot⟩ := hs.plotPixel_next hp (v != 0)
  have ht := plotPixel_ready hs hplot
  obtain ⟨l, hl, hget⟩ := ht.getPixel_pixelAt hp
  refine ⟨_, _, (hs.afterInit_eq _).trans hplot, hget, ?_⟩
  rw [hs.plotPixel_pixelAt hp hp hplot, if_pos rfl] at hl
  obtain rfl := Option.some.inj hl
  simp

/-- Settles O27: another coordinate out of range reads as 0 both times, and one in range is another pixel, which the write
leaves (`plotPixel_pixelAt`). -/
theorem pixelsAreIndependent : Obligations.PixelsAreIndependent := by
  intro s x y v x' y' hs hx hy hne
  obtain ⟨p, hp⟩ := (translate_isSome_iff hs.config).mpr ⟨hx, hy⟩
  obtain ⟨b, -, hplot⟩ := hs.plotPixel_next hp (v != 0)
  have hwrite : exec (.writePixel x y v) s = _ := (hs.afterInit_eq _).trans hplot
  have ht := plotPixel_ready hs hplot
  cases hq : translatePixel s.cfg x' y' with
  | none => exact ⟨_, _, _, hwrite, hs.exec_getPixel_invalid hq, ht.exec_getPixel_invalid hq, rfl⟩
  | some q =>
    obtain ⟨l, hl, hget⟩ := hs.getPixel_pixelAt hq
    obtain ⟨l', hl', hget'⟩ := ht.getPixel_pixelAt hq
    rw [hs.plotPixel_pixelAt hp hq hplot, if_neg hne, hl] at hl'
    obtain rfl := Option.some.inj hl'
    exact ⟨_, _, _, hwrite, hget, hget', rfl⟩

end Sys2Proof.Machine
end

-- ==== The chip-select lines (spec/41_chip_select.md): proofs ====
section
/-! SUPPORT. The events of the subroutines as the statements spell them (R67, R71, R48, R49), what each operation that
drives pins sends in a running state (R68, R72, R74, R86), and which chips receive the bits of a transaction (R69, R70). -/

namespace Sys2Proof.Machine

open Sys2Proof.Statement

section events

variable {cfg : Config} {i : Fin 4} {p : Pin} {ps : Pins}

/-! ## The events as the statements spell them -/

theorem configuredLines_eq_csLines (cfg : Config) : configuredLines cfg = csLines cfg := by
  simp only [configuredLines, csLines]
  match cfg.numChips with
  | 0 | 1 | 2 | 3 => decide
  | n + 4 =>
    rw [List.take_of_length_le (by simp), List.filter_eq_self.mpr fun i _ => decide_eq_true (by omega)]
    rfl

/-- The line writes of R67. -/
theorem lineWrites_eq_selectLines (cfg : Config) (mask : Byte) : lineWrites cfg mask = selectLines cfg mask := by
  rw [lineWrites, configuredLines_eq_csLines, selectLines]
  refine List.map_congr_left fun i _ => ?_
  cases mask.getLsbD i.val <;> rfl

/-- The low `n` bits of `v` in wire order (R12). -/
theorem bitsOf_eq_msbFirst (v : Byte) (n : Nat) : bitsOf v n = msbFirst v n := by
  refine List.ext_getElem (by simp [bitsOf]) fun k hk hk' => ?_
  have h := msbFirst_getElem? v (n := n) (j := k) (by simpa using hk')
  rw [List.getElem?_eq_getElem hk', Option.some.injEq] at h
  simp [bitsOf, h]

theorem sendBits_append (cfg : Config) (bits bits' : List Bool) :
    sendBits cfg (bits ++ bits') = sendBits cfg bits ++ sendBits cfg bits' := List.flatMap_append

/-- Bits sent for each element of a list are the bits of the list. -/
theorem sendBits_flatMap {α : Type} (cfg : Config) (f : α → List Bool) (as : List α) :
    sendBits cfg (as.flatMap f) = as.flatMap fun a => sendBits cfg (f a) := List.flatMap_assoc

/-- The bits of `writeBits(v, n)` (R71). -/
theorem writeBitsEvents_eq_sendBits (cfg : Config) (v : Byte) (n : Nat) :
    writeBitsEvents cfg v n = sendBits cfg (bitsOf v n) := by
  rw [bitsOf_eq_msbFirst]
  rfl

/-- The padding bit (R73). -/
theorem padEvents_eq_sendBits (cfg : Config) : padEvents cfg = sendBits cfg [cfg.padLevel] := rfl

/-- The bits of the write-RAM frame (R48, R36). -/
theorem writeRamFrame_eq_sendBits (cfg : Config) (bytes : List Byte) :
    writeRamFrame cfg bytes = sendBits cfg (ramFrameBits cfg bytes) := by
  have haddr : bitsOf 0 7 = List.replicate 7 false := rfl
  have hdata : byteEvents cfg = fun d => sendBits cfg (bitsOf d 8) :=
    funext fun d => (byteEvents_eq cfg d).trans (writeBitsEvents_eq_sendBits cfg d 8)
  simp only [writeRamFrame, ramFrameBits, sendBits_append, sendBits_flatMap, hdata, writeBitsEvents_eq_sendBits, haddr]

/-- The bits of the command frame (R49). -/
theorem commandFrame_eq_sendBits (cfg : Config) (codes : List Byte) :
    commandFrame cfg codes = sendBits cfg (commandFrameBits cfg codes) := by
  simp only [commandFrame, commandFrameBits, sendBits_append, sendBits_flatMap, writeBitsEvents_eq_sendBits,
    padEvents_eq_sendBits]

/-! ## Masks -/

theorem chipMask_eq_ofNat (t : Nat) : chipMask t = BitVec.ofNat 8 (2 ^ t) := by
  refine BitVec.eq_of_toNat_eq ?_
  rw [chipMask, ← BitVec.twoPow_eq, BitVec.toNat_twoPow, BitVec.toNat_ofNat]

/-- The mask of one chip selects that chip (R77). -/
theorem chipMask_getLsbD (t : Nat) (i : Fin 4) : (chipMask t).getLsbD i.val = decide (i.val = t) := by
  rw [chipMask, ← BitVec.twoPow_eq, BitVec.getLsbD_twoPow, ← Bool.decide_and]
  exact decide_eq_decide.mpr ⟨fun h => h.2.symm, fun h => ⟨by omega, h.symm⟩⟩

/-- The broadcast mask selects every configured chip (R84). -/
theorem broadcastMask_getLsbD (hi : i.val < cfg.numChips) : (broadcastMask cfg).getLsbD i.val = true := by
  have hbyte : i.val < 8 := by omega
  rw [broadcastMask, BitVec.getLsbD_ofNat, Nat.one_shiftLeft, Nat.testBit_two_pow_sub_one, decide_eq_true hbyte,
    decide_eq_true hi, Bool.and_self]

/-! ## Which chips receive bits (R70) -/

/-- A configured line after `selectLines(mask)` (R67). -/
theorem get_run_selectLines_line (mask : Byte) (ps : Pins) (hi : i.val < cfg.numChips) :
    (ps.run (selectLines cfg mask)).get (.csN i) =
      ⟨(ps.get (.csN i)).mode, if mask.getLsbD i.val then .low else .high⟩ := by
  refine ((get_run_selectLines cfg mask ps (.csN i)).trans (if_pos hi)).trans ?_
  cases mask.getLsbD i.val <;> rfl

/-- `selectLines(mask)` leaves every pin that is no configured line (R67). -/
theorem get_run_selectLines_other (mask : Byte) (ps : Pins) (hp : ∀ i : Fin 4, i.val < cfg.numChips → p ≠ .csN i) :
    (ps.run (selectLines cfg mask)).get p = ps.get p := by
  rw [get_run_selectLines]
  cases p with
  | csN i => exact if_neg fun hi => hp i hi rfl
  | _ => rfl

/-- Bits reach a chip whose line is low, whole and in order, and no other. -/
theorem receivedLevels_sendBits (i : Fin 4) (cfg : Config) (bits : List Bool) (hwr : (ps.get .wr).level = .low) :
    receivedLevels i ps (sendBits cfg bits) =
      if (ps.get (.csN i)).level = .low then bits.map Level.ofBool else [] := by
  have hsel : ps.selected i = true ↔ (ps.get (.csN i)).level = .low := beq_iff_eq
  have hbits := receivedLevels_bits i ps cfg bits hwr
  simp only [hsel] at hbits
  exact hbits

/-- The bits of a transaction reach the configured chips of its mask (R69). -/
theorem receivedLevels_transaction (mask : Byte) (bits : List Bool) (hwr : (ps.get .wr).level = .low)
    (hi : i.val < cfg.numChips) :
    receivedLevels i ps (transaction cfg mask (sendBits cfg bits)) =
      if mask.getLsbD i.val then bits.map Level.ofBool else [] := by
  have hstrobe : ((ps.run (selectLines cfg mask)).get .wr).level = .low :=
    (sent_selectLines cfg mask).strobe_low hwr
  simp only [transaction, receivedLevels_append, receivedLevels_selectLines, List.nil_append, List.append_nil]
  rw [receivedLevels_sendBits i cfg bits hstrobe, get_run_selectLines_line mask ps hi]
  cases mask.getLsbD i.val <;> simp

/-- Renders to several chips, each once: a chip receives the one that is its own. -/
theorem receivedLevels_renders (bytes : List Byte) (hwr : (ps.get .wr).level = .low) (hi : i.val < cfg.numChips)
    {ks : List Nat} (hks : ks.Nodup) :
    receivedLevels i ps (ks.flatMap fun k => transaction cfg (chipMask k) (writeRamFrame cfg bytes)) =
      if i.val ∈ ks then (ramFrameBits cfg bytes).map Level.ofBool else [] := by
  induction ks generalizing ps with
  | nil => rfl
  | cons k ks ih =>
    obtain ⟨hk, hks⟩ := List.nodup_cons.mp hks
    have hafter : ((ps.run (transaction cfg (chipMask k) (writeRamFrame cfg bytes))).get .wr).level = .low :=
      (sent_transaction _ (sent_writeRamFrame _ _)).strobe_low hwr
    rw [List.flatMap_cons, receivedLevels_append, ih hafter hks, writeRamFrame_eq_sendBits,
      receivedLevels_transaction _ _ hwr hi, chipMask_getLsbD]
    by_cases hik : i.val = k
    · simp [hik, hk]
    · simp [hik]

/-- Phase 1 of INIT strobes nothing (R82). -/
theorem receivedLevels_initPinEvents (i : Fin 4) (ps : Pins) (cfg : Config) :
    receivedLevels i ps (initPinEvents cfg) = [] :=
  receivedLevels_of_no_rise i ps (by simp [initPinEvents, selectLines])

/-- Phase 1 of INIT leaves WR low, whatever the pins were (R82). -/
theorem initPinEvents_strobe_low (cfg : Config) (ps : Pins) :
    ((ps.run (initPinEvents cfg)).get .wr).level = .low := by
  simp [initPinEvents, Pins.run_append]

/-- INIT sends every configured chip the five commands and then one all-zero render (R82, R84), whatever the pins were. -/
theorem receivedLevels_initEvents (ps : Pins) (hi : i.val < cfg.numChips) :
    receivedLevels i ps (initEvents cfg) =
      (commandFrameBits cfg (initCommands cfg) ++
        ramFrameBits cfg (List.replicate cfg.bufferBytes 0)).map Level.ofBool := by
  have hphase1 := initPinEvents_strobe_low cfg ps
  have hphase3 : (((ps.run (initPinEvents cfg)).run (broadcastEvents cfg)).get .wr).level = .low :=
    (sent_transaction _ (sent_commandFrame _ _)).strobe_low hphase1
  rw [initEvents, receivedLevels_append, receivedLevels_append, Pins.run_append, receivedLevels_initPinEvents,
    receivedLevels_renders _ hphase3 hi List.nodup_range, if_pos (List.mem_range.mpr hi), broadcastEvents,
    commandFrame_eq_sendBits, receivedLevels_transaction _ _ hphase1 hi, broadcastMask_getLsbD hi]
  simp

end events

section sends

variable {s : State} {mask n b : Byte}

/-! ## What the operations that drive pins send -/

theorem State.Running.exec_select (hs : s.Running) (mask : Byte) :
    exec (.select mask) s = .next (s.emit (lineWrites s.cfg mask)) := by
  simp only [exec, execSelect, hs.afterInit_eq, lineWrites_eq_selectLines]

theorem State.Running.exec_writeBits (hs : s.Running) (v : Byte) (hn : n.toNat ≤ 8) :
    exec (.writeBits v n) s = .next (s.emit (sendBits s.cfg (bitsOf v n.toNat))) := by
  simp only [exec, execWriteBits, hs.afterInit_eq, if_neg (Nat.not_lt.mpr hn), writeBitsEvents_eq_sendBits]

theorem State.Running.exec_writeSingleBit (hs : s.Running) :
    exec .writeSingleBit s = .next (s.emit (sendBits s.cfg [s.cfg.padLevel])) := by
  simp only [exec, execWriteSingleBit, hs.afterInit_eq, padEvents_eq_sendBits]

/-- SET_BRIGHTNESS sends one command to the mask that its operand resolves to (R86). -/
theorem State.Running.exec_setBrightness (hs : s.Running) (level : Byte)
    (hmask : resolveMask s.cfg s.activeTarget b = some mask) :
    exec (.setBrightness level b) s = .next (s.emit (transaction s.cfg mask
      (sendBits s.cfg (commandFrameBits s.cfg [pwmCode s.cfg (clampLevel level)])))) := by
  simp only [exec, execSetBrightness, hs.afterInit_eq, hmask, commandFrame_eq_sendBits]

/-- A plain mask resolves to itself and the sentinel to the valid target (R88). -/
theorem resolveMask_eq_some {cfg : Config} {target : Byte}
    (h : (b ≠ cfg.currentTarget ∧ mask = b) ∨
      (b = cfg.currentTarget ∧ target.toNat < cfg.numChips ∧ mask = BitVec.ofNat 8 (2 ^ target.toNat))) :
    resolveMask cfg target b = some mask := by
  obtain ⟨hplain, rfl⟩ | ⟨hsentinel, htarget, rfl⟩ := h
  · exact if_neg hplain
  · rw [resolveMask, if_pos hsentinel, if_neg (Nat.not_le.mpr htarget), chipMask_eq_ofNat]

/-- The bytes of a ready state's buffer in channel-then-index order (R31). -/
theorem State.Ready.bufferIs (hs : s.Ready) : BufferIs s (s.fb.map Prod.snd) := by
  refine ⟨?_, fun c k hc hk => ?_⟩
  · have hlen := congrArg List.length hs.buffer
    simpa [Config.bufferBytes] using hlen
  · exact (hs.bytes_getElem? (fbAddr_lt hc hk)).trans (byteAt_of_lt hc hk).symm

/-- Between operations of a run WR is low (R27). -/
theorem State.Inv.strobe_low (h : s.Inv) (hs : s.Running) : (s.pins.get .wr).level = .low := by
  rw [h.strobe hs.started]

end sends

/-! ## The obligations -/

/-- Settles O29: SELECT emits the line writes, which move the configured lines (`get_run_selectLines_line`) and no other pin
(`get_run_selectLines_other`). -/
theorem selectDrivesLines : Obligations.SelectDrivesLines := by
  refine ⟨fun m => wordIs_of_fields rfl (by simp), fun s m hs => ?_, fun m => faultsBeforeInit (by simp),
    faultsOnStrayBits (by decide)⟩
  refine ⟨_, hs.exec_select m, rfl, fun i hi => ?_, fun p hp => ?_, rfl⟩ <;>
    rw [emit_pins, lineWrites_eq_selectLines]
  · exact get_run_selectLines_line m s.pins hi
  · exact get_run_selectLines_other m s.pins hp

/-- Settles O35: each operation sends one transaction, or bits in the window that is open, and INIT a broadcast and one
render to each chip; WR is low where they begin, so the chips whose lines are low receive the bits. -/
theorem transactionsReachSelectedChipsOnly : Obligations.TransactionsReachSelectedChipsOnly := by
  refine ⟨fun s hs hinv htarget => ?_, fun s level b mask hs hinv hmask => ?_, fun s hw hf hstart => ?_,
    fun s v n hs hinv hn => ?_, fun s hs hinv => ?_⟩
  · refine ⟨_, _, _, hs.exec_render htarget, rfl, hs.bufferIs, fun i hi => ?_⟩
    rw [writeRamFrame_eq_sendBits, receivedLevels_transaction _ _ (hinv.strobe_low hs.toRunning) hi, chipMask_getLsbD]
    simp only [decide_eq_true_eq]
  · exact ⟨_, _, _, hs.exec_setBrightness level (resolveMask_eq_some hmask), rfl,
      fun i hi => receivedLevels_transaction _ _ (hinv.strobe_low hs) hi⟩
  · exact ⟨_, _, exec_init hw hf hstart, rfl, fun i hi => receivedLevels_initEvents s.pins hi⟩
  · exact ⟨_, _, hs.exec_writeBits v hn, rfl, fun i _ => receivedLevels_sendBits i s.cfg _ (hinv.strobe_low hs)⟩
  · exact ⟨_, _, hs.exec_writeSingleBit, rfl, fun i _ => receivedLevels_sendBits i s.cfg _ (hinv.strobe_low hs)⟩

end Sys2Proof.Machine
end

-- ==== The serial encoder (spec/42_serial_encoder.md): proofs ====
section
/-! SUPPORT. Where the pins stand after whole bits (R71), where WR rises in what an operation appends (R71, R82), and what
then holds of every rise of WR in the trace: the timing contract (R76), the encoder's precondition (R75) and known levels
(R106, R111). -/

namespace Sys2Proof.Machine

open Sys2Proof.Statement

section bitsOnPins

variable {cfg : Config} {ps : Pins} {p : Pin} {bits : List Bool} {b : Bool} {s : State} {n : Byte}

/-! ## The pins after whole bits -/

/-- After whole bits DATA is at the last of them (R71). -/
theorem get_run_sendBits_data (hlast : bits.getLast? = some b) :
    (ps.run (sendBits cfg bits)).get .data = ⟨(ps.get .data).mode, .ofBool b⟩ := by
  have h := get_run_bits cfg bits ps .data
  rw [hlast] at h
  exact h

/-- After whole bits WR is low (R71). -/
theorem get_run_sendBits_wr (hlast : bits.getLast? = some b) :
    (ps.run (sendBits cfg bits)).get .wr = ⟨(ps.get .wr).mode, .low⟩ := by
  have h := get_run_bits cfg bits ps .wr
  rw [hlast] at h
  exact h

/-- Whole bits leave every pin but DATA and WR (R71). -/
theorem get_run_sendBits_other (cfg : Config) (bits : List Bool) (ps : Pins) (hdata : p ≠ .data) (hwr : p ≠ .wr) :
    (ps.run (sendBits cfg bits)).get p = ps.get p := by
  refine (get_run_bits cfg bits ps p).trans ?_
  cases bits.getLast? with
  | none => rfl
  | some b => simp [hdata, hwr]

/-- The last of the low `n` bits in wire order is bit 0 (R12). -/
theorem bitsOf_getLast? (v : Byte) {n : Nat} (hn : 0 < n) : (bitsOf v n).getLast? = some (v.getLsbD 0) := by
  obtain ⟨k, rfl⟩ := Nat.exists_eq_succ_of_ne_zero hn.ne'
  rw [bitsOf_eq_msbFirst]
  exact msbFirst_getLast? v k

/-- A count above 8 raises `BAD_BIT_COUNT`, and nothing else happens (R72). -/
theorem State.Running.exec_writeBits_badCount (hs : s.Running) (v : Byte) (hn : 8 < n.toNat) :
    exec (.writeBits v n) s = .next (s.raiseFault .badBitCount) := by
  simp only [exec, execWriteBits, hs.afterInit_eq, if_pos hn]

end bitsOnPins

section rises

variable {cfg : Config} {ps : Pins} {P : List Event → Prop} {es fs trace : List Event} {i : Instr} {s t : State}

/-! ## The rises of WR in a list of events -/

/-- `P` holds of what stands before each rise of WR. `StrobesTimed` and `StrobesRise` are of this form. -/
def EachRise (P : List Event → Prop) (trace : List Event) : Prop :=
  ∀ before after, trace = before ++ .set .wr true :: after → P before

theorem eachRise_of_no_rise (h : Event.set .wr true ∉ es) : EachRise P es := by
  rintro before after rfl
  simp at h

/-- The rises of two lists in a row are those of the first, and those of the second after the whole first. -/
theorem EachRise.append (he : EachRise P es) (hf : EachRise (fun before => P (es ++ before)) fs) :
    EachRise P (es ++ fs) := by
  intro before after h
  obtain ⟨mid, rfl, hrest⟩ | ⟨mid, rfl, hrest⟩ := List.append_eq_append_iff.mp h
  · exact hf mid after hrest
  · cases mid with
    | nil => simpa using hf [] after hrest.symm
    | cons e mid =>
      obtain ⟨rfl, rfl⟩ := List.cons.inj hrest
      exact he before mid rfl

/-- In one bit WR rises once, after DATA has been driven and one delay (R71). -/
theorem eachRise_bitEvents {b : Bool} (h : P [.set .data b, .wait cfg.tProp]) : EachRise P (bitEvents cfg b) := by
  intro before after hbit
  have hsplit : before = [.set .data b, .wait cfg.tProp] ∧ after = [.set .wr false] := by
    simpa [bitEvents, List.cons_eq_append_iff] using hbit
  obtain ⟨rfl, -⟩ := hsplit
  exact h

/-- In what is sent after INIT, WR rises only inside a bit. -/
theorem Sent.eachRise (h : Sent cfg es) :
    EachRise (fun before => ∃ earlier b, Sent cfg earlier ∧ before = earlier ++ [.set .data b, .wait cfg.tProp]) es := by
  induction h with
  | nil => exact eachRise_of_no_rise (by simp)
  | line i l hi _ ih =>
    refine EachRise.append (es := [.set (.csN i) l]) (eachRise_of_no_rise (by simp)) fun before after h => ?_
    obtain ⟨earlier, b, hsent, rfl⟩ := ih before after h
    exact ⟨_, b, .line i l hi hsent, rfl⟩
  | bit b _ ih =>
    refine EachRise.append (es := bitEvents cfg b) (eachRise_bitEvents ⟨[], b, .nil, rfl⟩) fun before after h => ?_
    obtain ⟨earlier, b', hsent, rfl⟩ := ih before after h
    exact ⟨_, b', .bit b hsent, rfl⟩

/-- `P` holds where WR rises in any bit that may be sent after the events `trace`. -/
def HoldsAtBits (cfg : Config) (P : List Event → Prop) (trace : List Event) : Prop :=
  ∀ earlier b, Sent cfg earlier → P (trace ++ (earlier ++ [.set .data b, .wait cfg.tProp]))

theorem EachRise.append_sent (h : EachRise P trace) (hbits : HoldsAtBits cfg P trace) (hs : Sent cfg es) :
    EachRise P (trace ++ es) := by
  refine h.append fun before after hrise => ?_
  obtain ⟨earlier, b, hsent, rfl⟩ := hs.eachRise before after hrise
  exact hbits earlier b hsent

/-- INIT appends phase 1, in which WR does not rise, and then what may be sent after INIT (R82). -/
theorem initEvents_eq_append_sent (cfg : Config) :
    ∃ es, Sent cfg es ∧ initEvents cfg = initPinEvents cfg ++ es :=
  ⟨_, (sent_transaction _ (sent_commandFrame _ _)).append
    (.flatMap (fun _ => sent_transaction _ (sent_writeRamFrame _ _)) _), List.append_assoc _ _ _⟩

theorem rise_not_mem_initPinEvents (cfg : Config) : Event.set .wr true ∉ initPinEvents cfg := by
  simp [initPinEvents, selectLines]

/-! ## What a step keeps of the rises -/

/-- An operation keeps what holds of each rise if it holds in any bit after the trace, or after phase 1 of INIT. -/
theorem EachRise.exec (h : EachRise P s.trace) (hstarted : s.initDone = true → HoldsAtBits s.cfg P s.trace)
    (hfresh : HoldsAtBits s.cfg P (s.trace ++ initPinEvents s.cfg)) (hexec : exec i s = .next t) :
    EachRise P t.trace := by
  obtain ⟨-, ⟨-, rfl⟩ | ⟨-, c, -, rfl⟩ | ⟨-, -, -, rfl⟩ | ⟨-, hi, he⟩⟩ := exec_next hexec
  · exact h
  · exact h
  · obtain ⟨es, hs, hinit⟩ := initEvents_eq_append_sent s.cfg
    have hphase1 := h.append (eachRise_of_no_rise (rise_not_mem_initPinEvents s.cfg))
    have hall := hphase1.append_sent hfresh hs
    rwa [List.append_assoc, ← hinit] at hall
  · obtain ⟨-, es, hs, rfl⟩ | ⟨-, htrace⟩ := he.wire_or_quiet
    · exact h.append_sent (hstarted hi) hs
    · exact htrace ▸ h

/-- So does a step: reset empties the trace, and a word runs an operation or appends nothing. -/
theorem EachRise.step (h : EachRise P s.trace) (hstarted : s.initDone = true → HoldsAtBits s.cfg P s.trace)
    (hfresh : HoldsAtBits s.cfg P (s.trace ++ initPinEvents s.cfg)) (hstep : step s = .next t) :
    EachRise P t.trace := by
  obtain ⟨-, ⟨-, rfl⟩ | ⟨rest, -, rfl⟩ | ⟨w, rest, -, hword⟩⟩ := step_next hstep
  · exact h
  · exact eachRise_of_no_rise (by simp)
  · obtain ⟨-, ⟨-, rfl⟩ | ⟨-, -, rfl⟩ | ⟨-, i, -, hexec⟩⟩ := executeWord_next hword
    · exact h
    · exact h
    · exact EachRise.exec (s := { s with pending := rest }) h hstarted hfresh hexec

/-! ## The pins where WR rises (R75, R111) -/

/-- WR is low and every configured chip-select line is at a known level: what holds whenever bits are about to be sent. DATA
need not be known, since a bit drives it first. -/
def Pins.ReadyForBits (cfg : Config) (ps : Pins) : Prop :=
  (ps.get .wr).level = .low ∧ ∀ i : Fin 4, i.val < cfg.numChips → (ps.get (.csN i)).level ≠ .unknown

theorem Pins.ReadyForBits.run_sent (h : ps.ReadyForBits cfg) (hs : Sent cfg es) : (ps.run es).ReadyForBits cfg :=
  ⟨hs.strobe_low h.1, fun i hi => hs.known (h.2 i hi)⟩

/-- Phase 1 of INIT leaves the pins so, whatever they were (R82). -/
theorem readyForBits_initPinEvents (cfg : Config) (ps : Pins) : (ps.run (initPinEvents cfg)).ReadyForBits cfg := by
  refine ⟨initPinEvents_strobe_low cfg ps, fun i hi => ?_⟩
  have hset : .set (.csN i) true ∈ initPinEvents cfg := by
    simpa [initPinEvents, selectLines, mem_csLines] using hi
  exact Pins.level_run_of_set hset

/-- Between operations after INIT the pins are so (R27, R29). -/
theorem State.Inv.readyForBits (h : s.Inv) (hi : s.initDone = true) : s.pins.ReadyForBits s.cfg :=
  ⟨by rw [h.strobe hi], fun i hc => (h.lines hi i hc).2⟩

/-- Once a bit has driven DATA, WR is low and every configured pin known. -/
theorem Pins.ReadyForBits.run_data (h : ps.ReadyForBits cfg) (b : Bool) (n : Nat) :
    ((ps.run [.set .data b, .wait n]).get .wr).level = .low ∧
      ∀ p : Pin, p ≠ .clk → hasPin cfg p = true → ((ps.run [.set .data b, .wait n]).get p).level ≠ .unknown := by
  obtain ⟨hwr, hlines⟩ := h
  refine ⟨by simpa using hwr, fun p hclk hp => ?_⟩
  cases p with
  | csN i => simpa using hlines i (of_decide_eq_true hp)
  | wr => simp [hwr]
  | data => exact Pins.level_run_of_set (l := b) (by simp)
  | clk => exact absurd rfl hclk

/-- What `StrobesRise` says of a rise: WR was low, and every configured pin at a known level (R75, R111). -/
def RiseAllowed (cfg : Config) (before : List Event) : Prop :=
  ((Pins.reset.run before).get .wr).level = .low ∧
    ∀ p : Pin, p ≠ .clk → hasPin cfg p = true → ((Pins.reset.run before).get p).level ≠ .unknown

/-- A trace that leaves the pins ready may be followed by bits. -/
theorem Pins.ReadyForBits.holdsAtBits (h : (Pins.reset.run trace).ReadyForBits cfg) :
    HoldsAtBits cfg (RiseAllowed cfg) trace := by
  intro earlier b hs
  rw [RiseAllowed, Pins.run_append, Pins.run_append]
  exact (h.run_sent hs).run_data b cfg.tProp

end rises

/-! ## The obligations -/

/-- Settles O46: WR rises only inside the bits that are sent (`EachRise.step`), and a bit drives DATA and waits first, so no
hypothesis on the state is needed. -/
theorem strobeTimingKept : Obligations.StrobeTimingKept := by
  intro s t h hstep
  have hbits : ∀ trace, HoldsAtBits s.cfg
      (fun before => ∃ earlier b, before = earlier ++ [.set .data b, .wait s.cfg.tProp]) trace :=
    fun trace earlier b _ => ⟨trace ++ earlier, b, (List.append_assoc _ _ _).symm⟩
  rw [configurationNeverChanges s t hstep]
  exact EachRise.step h (fun _ => hbits _) (hbits _) hstep

/-- Settles O47: bits are sent after phase 1 of INIT or, by the invariant, between operations after INIT; in both cases WR is
low and the lines are known (`Pins.ReadyForBits`), which what is sent keeps, and each bit drives DATA before its strobe. -/
theorem strobesRiseKept : Obligations.StrobesRiseKept := by
  intro s t hinv h hstep
  rw [configurationNeverChanges s t hstep]
  refine EachRise.step (P := RiseAllowed s.cfg) h (fun hi => ?_) ?_ hstep
  · exact Pins.ReadyForBits.holdsAtBits (hinv.pins ▸ hinv.readyForBits hi)
  · refine Pins.ReadyForBits.holdsAtBits ?_
    rw [Pins.run_append]
    exact readyForBits_initPinEvents s.cfg _

/-- Settles O30: WRITE_BITS sends the low `n` bits, which leave DATA at the last of them, bit 0, WR low and every other pin;
a count above 8 raises `BAD_BIT_COUNT`. -/
theorem writeBitsShiftsOut : Obligations.WriteBitsShiftsOut := by
  refine ⟨fun v n => wordIs_of_fields rfl (by simp), fun s v n hs => ⟨fun hn => ?_, hs.exec_writeBits_badCount v⟩,
    fun v n => faultsBeforeInit (by simp), faultsOnStrayBits (by decide)⟩
  refine ⟨_, hs.exec_writeBits v hn, rfl, fun hpos => ?_, fun hzero => ?_,
    fun p => get_run_sendBits_other s.cfg _ s.pins, rfl⟩
  · have hlast := bitsOf_getLast? v hpos
    exact ⟨get_run_sendBits_data hlast, get_run_sendBits_wr hlast⟩
  · rw [hzero]
    rfl

/-- Settles O31: WRITE_SINGLE_BIT sends the padding bit, and the low bit of 0 is the same bit where `PAD_LEVEL` is 0. -/
theorem writeSingleBitSendsPadding : Obligations.WriteSingleBitSendsPadding := by
  refine ⟨wordIs_of_fields rfl (by simp), fun s hs => ?_, faultsBeforeInit (by simp), faultsOnStrayBits (by decide)⟩
  refine ⟨_, hs.exec_writeSingleBit, rfl, get_run_sendBits_data rfl, get_run_sendBits_wr rfl,
    fun p => get_run_sendBits_other s.cfg _ s.pins, rfl, fun hpad => ?_⟩
  rw [hpad]
  exact hs.exec_writeBits (n := 1) 0 (by decide)

end Sys2Proof.Machine
end

-- ==== The renderer and the render target (spec/43_render.md): proofs ====
section
/-! SUPPORT. The events of a render as the statements spell them and their number (R77, R80), and the operations that do
nothing while the target is invalid (R78, R79, R88). -/

namespace Sys2Proof.Machine

open Sys2Proof.Statement

variable {cfg : Config} {s t : State} {b : Byte} {k : Nat}

/-! ## The events of a render -/

/-- A render selects the target, sends the bits of the frame and deselects all (R77). -/
theorem renderTransaction_eq (cfg : Config) (k : Nat) (bytes : List Byte) :
    transaction cfg (chipMask k) (writeRamFrame cfg bytes) =
      lineWrites cfg (BitVec.ofNat 8 (2 ^ k)) ++ sendBits cfg (ramFrameBits cfg bytes) ++ lineWrites cfg 0 := by
  rw [transaction, chipMask_eq_ofNat, writeRamFrame_eq_sendBits, lineWrites_eq_selectLines, lineWrites_eq_selectLines]

/-- A render that answers emits the transaction of as many bytes as the buffer has. -/
theorem renderTo_emits_buffer (h : renderTo k s = .next t) :
    ∃ bytes, bytes.length = s.cfg.bufferBytes ∧
      t = s.emit (transaction s.cfg (chipMask k) (writeRamFrame s.cfg bytes)) := by
  obtain ⟨bytes, hread, ht⟩ := andThen_eq_next.mp h
  exact ⟨bytes, readBuffer_length hread, (Host.Outcome.next.inj ht).symm⟩

/-- Ten bits of ID and address, and eight for each byte (R80). -/
theorem dataLevels_render_length (cfg : Config) (mask : Byte) (bytes : List Byte) :
    (dataLevels (transaction cfg mask (writeRamFrame cfg bytes))).length = 10 + 8 * bytes.length := by
  have hdata : (bytes.flatMap (msbFirst · 8)).length = 8 * bytes.length := by
    simp [List.length_flatMap, Nat.mul_comm]
  rw [dataLevels_render, List.length_append, List.length_append, msbFirst_length, msbFirst_length, hdata]

/-- Two writes of each line, and four events for each bit (R80). -/
theorem renderTransaction_length (hw : cfg.wellFormed = true) (mask : Byte) (bytes : List Byte) :
    (transaction cfg mask (writeRamFrame cfg bytes)).length = 2 * cfg.numChips + 4 * (10 + 8 * bytes.length) := by
  rw [transaction_length hw, writeRamFrame_length]
  omega

/-- A render that answers has read one byte for each of the buffer, which fixes its bits and events (R80). -/
theorem renderTo_size (hw : s.cfg.wellFormed = true) (h : renderTo k s = .next t) :
    ∃ evs, t.trace = s.trace ++ evs ∧ (dataLevels evs).length = 10 + 8 * s.cfg.channelCount * s.cfg.len ∧
      evs.length = 2 * s.cfg.numChips + 4 * (10 + 8 * s.cfg.channelCount * s.cfg.len) := by
  obtain ⟨bytes, hbytes, rfl⟩ := renderTo_emits_buffer h
  rw [Nat.mul_assoc, ← Config.bufferBytes, ← hbytes]
  exact ⟨_, rfl, dataLevels_render_length _ _ _, renderTransaction_length hw _ _⟩

/-! ## An invalid target -/

/-- RENDER to a chip that does not exist does nothing (R78). -/
theorem State.Running.exec_render_invalid (hs : s.Running) (htarget : s.cfg.numChips ≤ s.activeTarget.toNat) :
    exec .render s = .next s := by
  simp only [exec, execRender, hs.afterInit_eq, if_pos htarget]

/-- The sentinel resolves to no mask while the target is invalid (R88). -/
theorem resolveMask_currentTarget_invalid {target : Byte} (htarget : cfg.numChips ≤ target.toNat) :
    resolveMask cfg target cfg.currentTarget = none := by
  rw [resolveMask, if_pos rfl, if_pos htarget]

/-- SET_BRIGHTNESS does nothing where its operand resolves to no mask (R86, R88). -/
theorem State.Running.exec_setBrightness_unresolved (hs : s.Running) (level : Byte)
    (hmask : resolveMask s.cfg s.activeTarget b = none) : exec (.setBrightness level b) s = .next s := by
  simp only [exec, execSetBrightness, hs.afterInit_eq, hmask]

theorem State.Running.exec_selectTarget (hs : s.Running) (target : Byte) :
    exec (.selectTarget target) s = .next { s with activeTarget := target } := by
  simp only [exec, execSelectTarget, hs.afterInit_eq]

/-- No value of the target stops the block (R79). -/
theorem State.Running.with_target (hs : s.Running) (target : Byte) :
    State.Running { s with activeTarget := target } := ⟨hs.config, hs.clean, hs.started⟩

/-! ## The obligations -/

/-- Settles O32: RENDER emits the transaction of the whole buffer (`State.Ready.exec_render`, `renderTransaction_eq`), after
which the block is Idle whatever the pins were (`renderTransaction_idle`). -/
theorem renderSendsBuffer : Obligations.RenderSendsBuffer := by
  refine ⟨wordIs_of_fields rfl (by simp), fun s hs => ⟨fun htarget => ?_, hs.exec_render_invalid⟩,
    faultsBeforeInit (by simp), faultsOnStrayBits (by decide)⟩
  refine ⟨_, _, hs.exec_render htarget, hs.bufferIs, ?_, renderTransaction_idle _ _, rfl⟩
  rw [emit_trace, renderTransaction_eq]

/-- Settles O33: `renderTo_size`; the spec's example is the case of 32 bytes, in which a channel is as long as the matrix is
wide (R10). -/
theorem renderSize : Obligations.RenderSize := by
  refine ⟨fun s k t => renderTo_size, fun s k t hw hcolumns hchannels hchips h => ?_⟩
  have hlen : s.cfg.len = 32 := (len_eq_outputSize hw).trans hcolumns
  have hexample := renderTo_size hw h
  rwa [hchannels, hchips, hlen] at hexample

/-- Settles O36: SELECT_TARGET stores its operand in a running state, which it leaves running, and there RENDER and
SET_BRIGHTNESS with the sentinel find no chip. -/
theorem selectTarget : Obligations.SelectTarget := by
  refine ⟨fun k => wordIs_of_fields rfl (by simp), fun s k hs => ⟨hs.exec_selectTarget k, fun hk => ?_⟩,
    fun k => faultsBeforeInit (by simp), faultsOnStrayBits (by decide)⟩
  have ht := hs.with_target k
  exact ⟨ht.exec_render_invalid hk,
    fun level => ht.exec_setBrightness_unresolved level (resolveMask_currentTarget_invalid hk)⟩

end Sys2Proof.Machine
end

-- ==== The initialization sequencer (spec/44_initialize.md): proofs ====
section
/-! SUPPORT. The events of INIT as the statements spell them (R82 to R84), where they leave the pins, and their number
(R85). -/

namespace Sys2Proof.Machine

open Sys2Proof.Statement

variable {cfg : Config} {ps : Pins} {p : Pin}

/-! ## The events of INIT -/

/-- The broadcast selects every chip, sends the bits of the five commands and deselects all (R83, R84). -/
theorem broadcastEvents_eq (cfg : Config) :
    broadcastEvents cfg = lineWrites cfg (BitVec.ofNat 8 (2 ^ cfg.numChips - 1)) ++
      sendBits cfg (commandFrameBits cfg (initCodes cfg)) ++ lineWrites cfg 0 := by
  have hcodes : initCommands cfg = initCodes cfg := rfl
  rw [broadcastEvents, transaction, broadcastMask, Nat.one_shiftLeft, commandFrame_eq_sendBits, hcodes,
    lineWrites_eq_selectLines, lineWrites_eq_selectLines]

/-- The four phases of R82; phase 2 zeroes the buffer and has no event. -/
theorem initEvents_eq_initTrace (cfg : Config) : initEvents cfg = initTrace cfg := by
  simp only [initEvents, initTrace, initPinEvents, broadcastEvents_eq, renderTransaction_eq,
    configuredLines_eq_csLines, lineWrites_eq_selectLines, Config.bufferBytes]

/-- INIT is as long as the second form of R85 says: phase 1, one command frame and one render to each chip. -/
theorem initEvents_length (hw : cfg.wellFormed = true) :
    (initEvents cfg).length = 4 * cfg.numChips + 195 +
      cfg.numChips * (2 * cfg.numChips + 40 + 32 * cfg.channelCount * cfg.len) := by
  have hpins : (initPinEvents cfg).length = 2 * cfg.numChips + 3 := by
    simp only [initPinEvents, List.length_append, List.length_map, csLines_length hw, selectLines_length hw,
      List.length_cons, List.length_nil]
    omega
  have hbroadcast : (broadcastEvents cfg).length = 2 * cfg.numChips + 192 := by
    rw [broadcastEvents, transaction_length hw, commandFrame_length]
    rfl
  have hrender (k : Nat) : (transaction cfg (chipMask k) (writeRamFrame cfg (List.replicate cfg.bufferBytes 0))).length =
      2 * cfg.numChips + 40 + 32 * cfg.channelCount * cfg.len := by
    rw [transaction_length hw, writeRamFrame_length, List.length_replicate, Config.bufferBytes]
    ring
  rw [initEvents, List.length_append, List.length_append, hpins, hbroadcast, List.length_flatMap]
  simp only [hrender, List.map_const', List.sum_replicate, List.length_range, smul_eq_mul]
  omega

/-! ## The pins after INIT -/

/-- Phase 1 makes every configured pin but CLK an output (R82). -/
theorem initEvents_output (hp : p ≠ .clk) (hc : hasPin cfg p = true) :
    ((ps.run (initEvents cfg)).get p).mode = .output :=
  Pins.mode_run_of_cfg (cfg_mem_initEvents hp hc)

/-- The frame of an all-zero buffer ends in a 0 bit, of the last byte or of the address (R48). -/
theorem ramFrameBits_zero_getLast? (cfg : Config) (n : Nat) :
    (ramFrameBits cfg (List.replicate n 0)).getLast? = some false := by
  have hbyte : bitsOf 0 8 = List.replicate 8 false := rfl
  rw [ramFrameBits, List.flatMap_replicate, hbyte, List.flatten_replicate_replicate, List.append_assoc,
    List.replicate_append_replicate, List.getLast?_append, List.getLast?_replicate, if_neg (by omega), Option.some_or]

/-- A render of an all-zero buffer leaves DATA low (R71). -/
theorem renderTransaction_zero_data_low (k n : Nat) (ps : Pins) :
    ((ps.run (transaction cfg (chipMask k) (writeRamFrame cfg (List.replicate n 0)))).get .data).level = .low := by
  rw [transaction, writeRamFrame_eq_sendBits, Pins.run_append, Pins.run_append,
    get_run_selectLines_other 0 _ (by simp), get_run_sendBits_data (ramFrameBits_zero_getLast? cfg n)]
  rfl

/-- INIT leaves DATA low, because it ends with the render to the last chip (R82). -/
theorem initEvents_data_low (hw : cfg.wellFormed = true) : ((ps.run (initEvents cfg)).get .data).level = .low := by
  obtain ⟨hchips, -⟩ := wellFormed_bounds hw
  obtain ⟨last, hlast⟩ := Nat.exists_eq_succ_of_ne_zero (Nat.ne_of_gt hchips)
  rw [initEvents, hlast, List.range_succ, List.flatMap_append, List.flatMap_singleton, ← List.append_assoc,
    Pins.run_append]
  exact renderTransaction_zero_data_low last _ _

/-! ## The obligations -/

/-- Settles O37: `exec_init` gives the state that INIT leaves. Its events are those of R82 (`initEvents_eq_initTrace`), it is
Idle with DATA low (`initEvents_idle`, `initEvents_data_low`), and each byte of the buffer has been written with 0. -/
theorem initBringsUp : Obligations.InitBringsUp := by
  refine ⟨wordIs_of_fields rfl (by simp), fun s hw hf hstart => ?_, fun s hw hf hstart => onceOnly_again hw hf hstart,
    faultsOnStrayBits (by decide)⟩
  obtain ⟨hlines, hwr⟩ := Pins.idle_iff.mp (initEvents_idle (cfg := s.cfg) (ps := s.pins))
  refine ⟨s.initialized, exec_init hw hf hstart, congrArg (s.trace ++ ·) (initEvents_eq_initTrace s.cfg),
    initialized_initDone s, (initialized_faulted s).trans hf, initialized_causeCode s, initialized_statusReserved s,
    rfl, rfl, fun c i hc hi => ?_, fun a ha => ?_, fun i hi => ?_, ?_, ?_, fun p => initEvents_untouched, rfl⟩
  · rw [byteAt_of_lt (s := s.initialized) hc hi]
    exact Memory.read_writeAll_mem 0 (List.mem_range.mpr (fbAddr_lt hc hi)) _
  · exact Memory.read_writeAll_other 0 (mt List.mem_range.mp ha) _
  · exact PinState.eq_mk (initEvents_output (by simp) (decide_eq_true hi)) (hlines i hi)
  · exact PinState.eq_mk (initEvents_output (by simp) rfl) hwr
  · exact PinState.eq_mk (initEvents_output (by simp) rfl) (initEvents_data_low hw)

/-- Settles O38: the first INIT appends `initEvents`, and `initEvents_length` is the second form of R85, of which the first
is the sum phase by phase and the examples are two cases. -/
theorem initSize : Obligations.InitSize := by
  intro s t hw hf hstart h
  obtain rfl := Host.Outcome.next.inj ((exec_init hw hf hstart).symm.trans h)
  have hlength := initEvents_length hw
  refine ⟨initEvents s.cfg, rfl, by omega, hlength, fun hchips hchannels hlen => ?_, fun hchips hchannels hlen => ?_⟩ <;>
    rw [hlength, hchips, hchannels, hlen]

end Sys2Proof.Machine
end

-- ==== The brightness controller (spec/45_brightness.md): proofs ====
section
/-! SUPPORT. The level that SET_BRIGHTNESS sends, case by case (R87), and the events of its transaction as the statement
spells them, with their number (R86, R89). -/

namespace Sys2Proof.Machine

open Sys2Proof.Statement

variable {cfg : Config} {a : Byte}

/-! ## The level clamp -/

theorem clampLevel_of_zero (ha : a.toNat = 0) : clampLevel a = 1 := if_pos ha

theorem clampLevel_of_above (ha : 16 < a.toNat) : clampLevel a = 16 := by
  rw [clampLevel, if_neg (Nat.ne_zero_of_lt ha), if_pos ha]

theorem clampLevel_of_within (hlow : 1 ≤ a.toNat) (hhigh : a.toNat ≤ 16) : clampLevel a = a.toNat := by
  rw [clampLevel, if_neg (Nat.ne_zero_of_lt hlow), if_neg (Nat.not_lt.mpr hhigh)]

/-! ## The transaction of one command -/

/-- Two writes of each line, and four events for each of the twelve bits (R89). -/
theorem commandTransaction_length (hw : cfg.wellFormed = true) (mask code : Byte) :
    (transaction cfg mask (commandFrame cfg [code])).length = 2 * cfg.numChips + 48 := by
  rw [transaction_length hw, commandFrame_length]
  rfl

/-! ## The obligation -/

/-- Settles O39: SET_BRIGHTNESS emits one command transaction to the mask that its operand resolves to
(`State.Running.exec_setBrightness`), which ends Idle whatever the pins were (`commandTransaction_idle`); the sentinel with an
invalid target resolves to no mask. -/
theorem setBrightnessSendsPwm : Obligations.SetBrightnessSendsPwm := by
  refine ⟨fun a b => wordIs_of_fields rfl (by simp), fun s a b mask hs hmask => ?_,
    fun s a hs htarget => hs.exec_setBrightness_unresolved a (resolveMask_currentTarget_invalid htarget),
    fun a b => faultsBeforeInit (by simp), faultsOnStrayBits (by decide)⟩
  refine ⟨_, clampLevel a, _, hs.exec_setBrightness a (resolveMask_eq_some hmask), clampLevel_of_zero, clampLevel_of_above,
    clampLevel_of_within, rfl, ?_, ?_, ?_, rfl⟩
  · rw [transaction, pwmCode, lineWrites_eq_selectLines, lineWrites_eq_selectLines]
  · rw [← commandFrame_eq_sendBits]
    exact commandTransaction_length hs.config _ _
  · rw [emit_pins, ← commandFrame_eq_sendBits]
    exact commandTransaction_idle _ _

end Sys2Proof.Machine
end

-- ==== Faults (spec/60_exceptions.md): proofs ====
section
/-! SUPPORT. Which check of R92 applies to a word, that a fault is all that its word does (R93), and what a halted block
does with words, waiting and reset (R94, R103). -/

namespace Sys2Proof.Machine

open Sys2Proof.Statement

section faults

variable {w : OpWord} {i : Instr} {c : Cause} {s t : State} {rest : List HostInput}

/-! ## The operation code of a word that decodes (R45) -/

theorem fieldOp_encode_eq_one_iff (i : Instr) : fieldOp (encode i) = 1 ↔ i = .init := by
  cases i <;> simp [encode, fieldOp_wordOf]

/-- A word decodes to INIT exactly where its operation code is 1. -/
theorem fieldOp_eq_one_iff (h : decode w = .ok i) : fieldOp w = 1 ↔ i = .init := by
  rw [← encode_of_decode h]
  exact fieldOp_encode_eq_one_iff i

/-- A word decodes to WRITE_BITS where its operation code is 3, with its fields `A` and `B`. -/
theorem eq_writeBits_of_fieldOp (h : decode w = .ok i) (hop : fieldOp w = 3) :
    i = .writeBits (fieldA w) (fieldB w) := by
  obtain ⟨-, hrow⟩ := decode_eq_ok_iff.mp h
  rw [hop] at hrow
  exact (ifUnusedZero_eq_ok.mp hrow).2.symm

/-- The word of WRITE_BITS has the operation code 3 and the count as its field `B`. -/
theorem fields_of_writeBits {v n : Byte} (h : decode w = .ok (.writeBits v n)) : fieldOp w = 3 ∧ fieldB w = n := by
  rw [← encode_of_decode h]
  exact ⟨fieldOp_wordOf _ _ _ _, fieldB_wordOf _ _ _ _⟩

/-! ## Which fault a clean block raises (R92, R93) -/

/-- Where an operation ends a clean block faulted, it has raised one fault and done nothing else (R93). -/
theorem exec_raises_of_faulted (hf : s.faulted = false) (h : exec i s = .next t) (ht : t.faulted = true) :
    ∃ c, Raises s i c ∧ t = s.raiseFault c := by
  have hchanged : t.faulted ≠ s.faulted := by simp [hf, ht]
  obtain ⟨-, ⟨-, rfl⟩ | ⟨-, hraises⟩ | ⟨-, -, -, rfl⟩ | ⟨-, -, he⟩⟩ := exec_next h
  · exact absurd rfl hchanged
  · exact hraises
  · exact absurd (initialized_faulted s) hchanged
  · exact absurd (faulted_of_status he.status) hchanged

/-- A legal word that passes the checks of R92 raises no fault. -/
theorem not_raises (h : decode w = .ok i) (hinit : fieldOp w = 1 ↔ s.initDone = false)
    (hcount : fieldOp w = 3 → (fieldB w).toNat ≤ 8) : ¬ Raises s i c := by
  rw [fieldOp_eq_one_iff h] at hinit
  intro hraises
  cases hraises with
  | notInitialized hne hi => exact hne (hinit.mpr hi)
  | reinit hi => simp [hinit.mp rfl] at hi
  | badBitCount v n hi hn =>
    obtain ⟨hop, rfl⟩ := fields_of_writeBits h
    exact absurd hn (Nat.not_lt.mpr (hcount hop))

/-- A second INIT raises `REINIT` (R92). -/
theorem executeWord_reinit (hw : s.cfg.wellFormed = true) (hf : s.faulted = false) (hi : s.initDone = true)
    (hlegal : ¬ IllegalWord w) (hop : fieldOp w = 1) : executeWord w s = .next (s.raiseFault .reinit) := by
  obtain ⟨i, hd⟩ := decodes_iff_legal.mpr hlegal
  obtain rfl := (fieldOp_eq_one_iff hd).mp hop
  exact (executeWord_ok hw hf hd).trans (onceOnly_again hw hf hi)

/-- Any other operation before INIT raises `NOT_INITIALIZED` (R92). -/
theorem executeWord_notInitialized (hw : s.cfg.wellFormed = true) (hf : s.faulted = false) (hi : s.initDone = false)
    (hlegal : ¬ IllegalWord w) (hop : fieldOp w ≠ 1) : executeWord w s = .next (s.raiseFault .notInitialized) := by
  obtain ⟨i, hd⟩ := decodes_iff_legal.mpr hlegal
  exact (executeWord_ok hw hf hd).trans (faultsBeforeInit (mt (fieldOp_eq_one_iff hd).mpr hop) s hw hf hi)

/-- WRITE_BITS after INIT raises `BAD_BIT_COUNT` for a count above 8 (R92). -/
theorem State.Running.executeWord_badBitCount (hs : s.Running) (hlegal : ¬ IllegalWord w) (hop : fieldOp w = 3)
    (hcount : 8 < (fieldB w).toNat) : executeWord w s = .next (s.raiseFault .badBitCount) := by
  obtain ⟨i, hd⟩ := decodes_iff_legal.mpr hlegal
  obtain rfl := eq_writeBits_of_fieldOp hd hop
  exact (executeWord_ok hs.config hs.clean hd).trans (hs.exec_writeBits_badCount _ hcount)

/-! ## A halted block (R94) -/

theorem exec_halted (hw : s.cfg.wellFormed = true) (hf : s.faulted = true) (i : Instr) : exec i s = .next s := by
  by_cases hi : i = .init
  · subst hi
    exact onceOnly_halted hw hf
  · obtain ⟨body, hbody⟩ := exec_afterInit hi
    rw [hbody, afterInit_halted hw hf]

theorem executeWord_halted (hw : s.cfg.wellFormed = true) (hf : s.faulted = true) (w : OpWord) :
    executeWord w s = .next s :=
  unlessHalted_halted hw hf

/-! ## The bits of STATUS along a step (R22, R94, R103) -/

/-- No operation clears `INIT_DONE`. -/
theorem exec_initDone (h : exec i s = .next t) (hi : s.initDone = true) : t.initDone = true := by
  obtain ⟨-, ⟨-, rfl⟩ | ⟨-, c, -, rfl⟩ | ⟨-, -, -, rfl⟩ | ⟨-, -, he⟩⟩ := exec_next h
  · exact hi
  · exact (raiseFault_initDone s c).trans hi
  · exact initialized_initDone s
  · exact (initDone_of_status he.status).trans hi

/-- No word clears `INIT_DONE`. -/
theorem executeWord_initDone (h : executeWord w s = .next t) (hi : s.initDone = true) : t.initDone = true := by
  obtain ⟨-, ⟨-, rfl⟩ | ⟨-, -, rfl⟩ | ⟨-, i, -, hexec⟩⟩ := executeWord_next h
  · exact hi
  · exact (raiseFault_initDone s _).trans hi
  · exact exec_initDone hexec hi

/-- A step of a halted block that is no reset leaves STATUS as it is. -/
theorem step_status_of_halted (h : step s = .next t) (hreset : ∀ rest, s.pending ≠ .reset :: rest)
    (hf : s.faulted = true) : t.status = s.status := by
  obtain ⟨hw, ⟨-, rfl⟩ | ⟨rest, hp, -⟩ | ⟨w, rest, -, hword⟩⟩ := step_next h
  · rfl
  · exact absurd hp (hreset rest)
  · obtain rfl := Host.Outcome.next.inj ((executeWord_halted (s := { s with pending := rest }) hw hf w).symm.trans hword)
    rfl

/-- A step that is no reset does not clear `INIT_DONE`. -/
theorem step_initDone (h : step s = .next t) (hreset : ∀ rest, s.pending ≠ .reset :: rest) (hi : s.initDone = true) :
    t.initDone = true := by
  obtain ⟨-, ⟨-, rfl⟩ | ⟨rest, hp, -⟩ | ⟨w, rest, -, hword⟩⟩ := step_next h
  · exact hi
  · exact absurd hp (hreset rest)
  · exact executeWord_initDone hword hi

/-- A step with the reset input is `State.assertReset` (R103). -/
theorem step_of_reset (hw : s.cfg.wellFormed = true) (hp : s.pending = .reset :: rest) :
    step s = .next { s with pending := rest }.assertReset :=
  step_of_cons hw hp

end faults

/-! ## The obligations -/

/-- Settles O7: the step takes the word, and a clean block runs the operation it decodes to. -/
theorem stepRunsDecodedOperation : Obligations.StepRunsDecodedOperation := by
  intro s w rest i hw hf hp hd
  rw [step_of_cons hw hp]
  exact executeWord_ok (s := { s with pending := rest }) hw hf hd

/-- Settles O12: the fields of STATUS after raising a fault; and a word that leaves a clean block faulted was illegal, or its
operation raised the fault (`exec_raises_of_faulted`). -/
theorem faultEntryIsPrecise : Obligations.FaultEntryIsPrecise := by
  refine ⟨fun s c => ⟨rfl, raiseFault_faulted s c, ?_, raiseFault_initDone s c, raiseFault_statusReserved s c⟩,
    fun s t w hf h ht => ?_⟩
  · rw [raiseFault_causeCode]
    cases c <;> rfl
  · obtain ⟨-, ⟨hhalted, -⟩ | ⟨-, -, rfl⟩ | ⟨-, i, -, hexec⟩⟩ := executeWord_next h
    · simp [hf] at hhalted
    · exact ⟨.illegalOp, rfl⟩
    · obtain ⟨c, -, hc⟩ := exec_raises_of_faulted hf hexec ht
      exact ⟨c, hc⟩

/-- Settles O13: one lemma for each check; where none applies, a faulted end would need a fault that the operation raises
(`exec_raises_of_faulted`), and it raises none (`not_raises`). -/
theorem checkOrder : Obligations.CheckOrder := by
  refine fun s w hw => ⟨fun hf => executeWord_halted hw hf w, fun hf => executeWord_illegal hw hf,
    fun hf hlegal hop hi => executeWord_reinit hw hf hi hlegal hop,
    fun hf hlegal hop hi => executeWord_notInitialized hw hf hi hlegal hop,
    fun hf hlegal hop hi hcount => State.Running.executeWord_badBitCount ⟨hw, hf, hi⟩ hlegal hop hcount,
    fun hf hlegal hinit hcount => ?_⟩
  obtain ⟨i, hd⟩ := decodes_iff_legal.mpr hlegal
  refine ⟨i, hd, executeWord_ok hw hf hd, fun t ht => Bool.eq_false_iff.mpr fun hfault => ?_⟩
  obtain ⟨c, hraises, -⟩ := exec_raises_of_faulted hf ht hfault
  exact not_raises hd hinit hcount hraises

/-- Settles O14: the checks of R92 stop every word and operation of a halted block, and reset leaves STATUS 0. -/
theorem haltedBlockIgnoresWords : Obligations.HaltedBlockIgnoresWords := by
  refine fun s hw hf => ⟨executeWord_halted hw hf, exec_halted hw hf, fun w rest hp => ?_, fun rest hp => ?_⟩
  · rw [step_of_cons hw hp]
    exact executeWord_halted (s := { s with pending := rest }) hw hf w
  · exact ⟨_, step_of_reset hw hp, assertReset_faulted _, assertReset_causeCode _⟩

/-- Settles O15: a step that is no reset leaves the STATUS of a halted block (`step_status_of_halted`) and a set `INIT_DONE`
(`step_initDone`); a reset ends the halt. -/
theorem statusBitsClearedOnlyByReset : Obligations.StatusBitsClearedOnlyByReset := by
  intro s t h
  by_cases hreset : ∃ rest, s.pending = .reset :: rest
  · refine ⟨fun _ _ => hreset, fun _ _ => hreset, fun _ ht => ?_⟩
    obtain ⟨rest, hp⟩ := hreset
    obtain ⟨hw, -⟩ := step_next h
    obtain rfl := Host.Outcome.next.inj ((step_of_reset hw hp).symm.trans h)
    simp at ht
  · have hno : ∀ rest, s.pending ≠ .reset :: rest := not_exists.mp hreset
    refine ⟨fun hf ht => ?_, fun hi ht => ?_, fun hf _ => causeCode_of_status (step_status_of_halted h hno hf)⟩
    · simp [faulted_of_status (step_status_of_halted h hno hf), hf] at ht
    · simp [step_initDone h hno hi] at ht

end Sys2Proof.Machine
end

-- ==== Reset and hazards (spec/70_reset_and_hazards.md): proofs ====
section
/-! SUPPORT. The time that events take (R113): each bit brings one wait of `T_PROP` and nothing else takes time, so the events
of an operation and their waits are counted by the events and bits of what it sends. -/

namespace Sys2Proof.Machine

open Sys2Proof.Statement

variable {cfg : Config} {s t : State} {i : Instr} {es fs : List Event}

/-! ## One wait for each bit -/

theorem waitCount_append (es fs : List Event) : waitCount (es ++ fs) = waitCount es + waitCount fs :=
  List.countP_append

theorem minTime_append (es fs : List Event) : minTime (es ++ fs) = minTime es + minTime fs := by
  rw [minTime, List.map_append, List.sum_append, minTime, minTime]

/-- There are as many waits as levels driven on DATA, each of `T_PROP` (R71, R76). -/
def OneWaitPerBit (cfg : Config) (es : List Event) : Prop :=
  waitCount es = (dataLevels es).length ∧ minTime es = (dataLevels es).length * cfg.tProp

theorem OneWaitPerBit.append (he : OneWaitPerBit cfg es) (hf : OneWaitPerBit cfg fs) : OneWaitPerBit cfg (es ++ fs) := by
  obtain ⟨hecount, hetime⟩ := he
  obtain ⟨hfcount, hftime⟩ := hf
  refine ⟨?_, ?_⟩
  · rw [waitCount_append, dataLevels_append, List.length_append, hecount, hfcount]
  · rw [minTime_append, dataLevels_append, List.length_append, hetime, hftime, Nat.add_mul]

theorem oneWaitPerBit_bitEvents (cfg : Config) (b : Bool) : OneWaitPerBit cfg (bitEvents cfg b) :=
  ⟨rfl, (Nat.zero_add _).trans (Nat.one_mul _).symm⟩

/-- Chip-select writes take no time (R67). -/
theorem Sent.oneWaitPerBit (h : Sent cfg es) : OneWaitPerBit cfg es := by
  induction h with
  | nil => exact ⟨rfl, (Nat.zero_mul _).symm⟩
  | line i l _ _ ih => exact .append (es := [.set (.csN i) l]) ⟨rfl, (Nat.zero_mul _).symm⟩ ih
  | bit b _ ih => exact (oneWaitPerBit_bitEvents cfg b).append ih

/-- Phase 1 of INIT sends no bit (R82). -/
theorem dataLevels_initPinEvents (cfg : Config) : dataLevels (initPinEvents cfg) = [] := by
  simp [initPinEvents, selectLines, dataLevels]

/-- Phase 1 of INIT has no wait either (R82). -/
theorem oneWaitPerBit_initPinEvents (cfg : Config) : OneWaitPerBit cfg (initPinEvents cfg) := by
  rw [OneWaitPerBit, dataLevels_initPinEvents]
  simp [initPinEvents, selectLines, waitCount, minTime, Function.comp_def, Event.minTime]

theorem oneWaitPerBit_initEvents (cfg : Config) : OneWaitPerBit cfg (initEvents cfg) := by
  obtain ⟨es, hs, heq⟩ := initEvents_eq_append_sent cfg
  exact heq ▸ (oneWaitPerBit_initPinEvents cfg).append hs.oneWaitPerBit

/-! ## The bits of a transaction and of INIT -/

/-- A command transaction carries the bits of its frame (R49, R86). -/
theorem dataLevels_command (cfg : Config) (mask : Byte) (codes : List Byte) :
    dataLevels (transaction cfg mask (commandFrame cfg codes)) = commandFrameBits cfg codes := by
  rw [transaction, commandFrame_eq_sendBits, dataLevels_append, dataLevels_append, dataLevels_selectLines,
    dataLevels_selectLines, List.nil_append, List.append_nil]
  exact dataLevels_bits cfg _

theorem dataLevels_flatMap {α : Type} (f : α → List Event) (as : List α) :
    dataLevels (as.flatMap f) = as.flatMap fun a => dataLevels (f a) := List.filterMap_flatMap

/-- Three bits of the command ID, five codes with their padding bit, and one render to each chip (R83, R85). -/
theorem dataLevels_initEvents_length (cfg : Config) :
    (dataLevels (initEvents cfg)).length = 48 + cfg.numChips * (10 + 8 * cfg.bufferBytes) := by
  have hbroadcast : (dataLevels (broadcastEvents cfg)).length = 48 := congrArg List.length (dataLevels_command cfg _ _)
  have hrender (k : Nat) := dataLevels_render_length cfg (chipMask k) (List.replicate cfg.bufferBytes 0)
  rw [initEvents, dataLevels_append, dataLevels_append, dataLevels_initPinEvents, dataLevels_flatMap, List.nil_append,
    List.length_append, hbroadcast, List.length_flatMap]
  simp only [hrender, List.length_replicate, List.map_const', List.sum_replicate, List.length_range, smul_eq_mul]

/-! ## What an operation appends -/

/-- From `s` to `t` the trace grows by so many events, so many of them waits of `T_PROP` (R113). -/
def State.Appends (s t : State) (events waits : Nat) : Prop :=
  ∃ evs, t.trace = s.trace ++ evs ∧ evs.length = events ∧ waitCount evs = waits ∧ minTime evs = waits * s.cfg.tProp

theorem State.appends_none (h : t.trace = s.trace) : s.Appends t 0 0 :=
  ⟨[], by simp [h], rfl, rfl, (Nat.zero_mul _).symm⟩

/-- Where each bit brings one wait, the bits are the waits. -/
theorem OneWaitPerBit.appends {events waits : Nat} (h : OneWaitPerBit s.cfg es) (htrace : t.trace = s.trace ++ es)
    (hevents : es.length = events) (hbits : (dataLevels es).length = waits) : s.Appends t events waits := by
  obtain ⟨hcount, htime⟩ := h
  rw [hbits] at hcount htime
  exact ⟨es, htrace, hevents, hcount, htime⟩

/-- Bits alone take four events and one wait each (R71). -/
theorem State.appends_sendBits (s : State) (bits : List Bool) :
    s.Appends (s.emit (sendBits s.cfg bits)) (4 * bits.length) bits.length :=
  (Sent.flatMap (sent_bitEvents s.cfg) bits).oneWaitPerBit.appends rfl (flatMap_bitEvents_length s.cfg bits)
    (congrArg List.length (dataLevels_bits s.cfg bits))

/-- INIT appends the events of R85. -/
theorem State.appends_initialized (hw : s.cfg.wellFormed = true) :
    s.Appends s.initialized (eventCount s .init).1 (eventCount s .init).2 := by
  refine (oneWaitPerBit_initEvents s.cfg).appends rfl ?_ (dataLevels_initEvents_length s.cfg)
  rw [initEvents_length hw, Nat.mul_assoc 32]
  rfl

/-- RENDER appends one transaction where the target is valid, and nothing where it is not (R78, R80). -/
theorem State.Running.appends_render (hs : s.Running) (h : exec .render s = .next t) :
    s.Appends t (eventCount s .render).1 (eventCount s .render).2 := by
  rw [eventCount]
  split
  next htarget =>
    simp only [exec, execRender, hs.afterInit_eq, if_neg (Nat.not_le.mpr htarget)] at h
    obtain ⟨bytes, hbytes, rfl⟩ := renderTo_emits_buffer h
    rw [← Config.bufferBytes, ← hbytes]
    refine (sent_transaction _ (sent_writeRamFrame s.cfg bytes)).oneWaitPerBit.appends rfl ?_
      (dataLevels_render_length s.cfg _ bytes)
    rw [renderTransaction_length hs.config]
    ring
  next htarget =>
    obtain rfl := Host.Outcome.next.inj ((hs.exec_render_invalid (Nat.not_lt.mp htarget)).symm.trans h)
    exact State.appends_none rfl

/-- An operand resolves to no mask only where the sentinel meets an invalid target (R88). -/
theorem resolveMask_eq_none_iff {target b : Byte} :
    resolveMask cfg target b = none ↔ b = cfg.currentTarget ∧ cfg.numChips ≤ target.toNat := by
  rw [resolveMask]
  split_ifs <;> simp_all

/-- SET_BRIGHTNESS appends one command transaction where its operand resolves to a mask, else nothing (R86, R88, R89). -/
theorem State.Running.appends_setBrightness {level b : Byte} (hs : s.Running)
    (h : exec (.setBrightness level b) s = .next t) :
    s.Appends t (eventCount s (.setBrightness level b)).1 (eventCount s (.setBrightness level b)).2 := by
  cases hmask : resolveMask s.cfg s.activeTarget b with
  | none =>
    obtain rfl := Host.Outcome.next.inj ((hs.exec_setBrightness_unresolved level hmask).symm.trans h)
    rw [eventCount, if_pos (resolveMask_eq_none_iff.mp hmask)]
    exact State.appends_none rfl
  | some mask =>
    obtain rfl := Host.Outcome.next.inj ((hs.exec_setBrightness level hmask).symm.trans h)
    have hemits : ¬ (b = s.cfg.currentTarget ∧ s.cfg.numChips ≤ s.activeTarget.toNat) := by
      rw [← resolveMask_eq_none_iff, hmask]
      simp
    rw [eventCount, if_neg hemits, ← commandFrame_eq_sendBits]
    exact (sent_transaction _ (sent_commandFrame s.cfg _)).oneWaitPerBit.appends rfl
      (commandTransaction_length hs.config _ _) (congrArg List.length (dataLevels_command s.cfg _ _))

/-- WRITE_BITS appends its bits (R71, R72). -/
theorem State.Running.appends_writeBits {v n : Byte} (hs : s.Running) (h : exec (.writeBits v n) s = .next t)
    (ht : t.faulted = false) : s.Appends t (4 * n.toNat) n.toNat := by
  obtain hn | hn := le_or_gt n.toNat 8
  · obtain rfl := Host.Outcome.next.inj ((hs.exec_writeBits v hn).symm.trans h)
    have hbits : (bitsOf v n.toNat).length = n.toNat := by simp [bitsOf]
    simpa only [hbits] using s.appends_sendBits (bitsOf v n.toNat)
  · obtain rfl := Host.Outcome.next.inj ((hs.exec_writeBits_badCount v hn).symm.trans h)
    simp at ht

/-- SELECT appends one write of each line (R67). -/
theorem State.Running.appends_select {mask : Byte} (hs : s.Running) (h : exec (.select mask) s = .next t) :
    s.Appends t s.cfg.numChips 0 := by
  obtain rfl := Host.Outcome.next.inj ((hs.exec_select mask).symm.trans h)
  rw [lineWrites_eq_selectLines]
  exact (sent_selectLines s.cfg mask).oneWaitPerBit.appends rfl (selectLines_length hs.config mask)
    (congrArg List.length (dataLevels_selectLines s.cfg mask))

/-- An operation that drives no pin appends no event (R66). -/
theorem Effect.trace_of_quiet (h : Effect i s t) (hi : drivesWire i = false) : t.trace = s.trace := by
  obtain ⟨hdrives, -⟩ | ⟨-, htrace⟩ := h.wire_or_quiet
  · simp [hi] at hdrives
  · exact htrace

/-- Every operation that passes the checks of R92 appends what its row of R113 says. -/
theorem Effect.appends (he : Effect i s t) (hs : s.Running) (h : exec i s = .next t) (ht : t.faulted = false) :
    s.Appends t (eventCount s i).1 (eventCount s i).2 := by
  cases i with
  | init => cases he <;> contradiction -- no effect is INIT's
  | select mask => exact hs.appends_select h
  | writeBits v n => exact hs.appends_writeBits h ht
  | writeSingleBit =>
    obtain rfl := Host.Outcome.next.inj (hs.exec_writeSingleBit.symm.trans h)
    exact s.appends_sendBits [s.cfg.padLevel]
  | render => exact hs.appends_render h
  | setBrightness level b => exact hs.appends_setBrightness h
  | _ => exact State.appends_none (he.trace_of_quiet rfl)

/-! ## The obligations -/

/-- Settles O40: a raised fault leaves the trace; where none is raised the block ran INIT (`State.appends_initialized`) or an
operation that passed the checks (`Effect.appends`). -/
theorem eventCounts : Obligations.EventCounts := by
  intro s t i hf h
  obtain ⟨hw, ⟨hhalted, -⟩ | ⟨-, c, -, rfl⟩ | ⟨-, -, rfl, rfl⟩ | ⟨-, hi, he⟩⟩ := exec_next h
  · simp [hf] at hhalted
  · exact ⟨fun _ => raiseFault_trace s c, by simp⟩
  · exact ⟨by simp [hf], fun _ => State.appends_initialized hw⟩
  · have ht : t.faulted = false := (faulted_of_status he.status).trans hf
    exact ⟨by simp [ht], fun _ => he.appends ⟨hw, hf, hi⟩ h ht⟩

/-- Settles O8: `step_of_nil`. -/
theorem stepWaitsForHost : Obligations.StepWaitsForHost := fun _ => step_of_nil

/-- Settles O9: the step is `State.assertReset` (`step_of_reset`), whose fields are the reset column; a buffer that lists
nothing reads nothing. -/
theorem resetInputRestoresResetColumn : Obligations.ResetInputRestoresResetColumn := by
  intro s rest hw hp
  refine ⟨_, step_of_reset hw hp, Pins.get_reset, rfl, rfl, rfl, rfl, rfl, fun c i => ?_, rfl, rfl⟩
  simp [State.byteAt, Memory.read]

end Sys2Proof.Machine
end
